-- ==== Sys2Proof/Word.lean ====
section
/-! DEFINITION. Word.lean: the two cell types of the block and their integer readings (spec/00_scope.md R6, R7).
`Byte` is a cell of `RAW` (R14: 8 bits, unsigned 0 to 255), `Word` a cell of `SMP` (R15, R55: 32 bits, two's complement). -/

namespace Sys2Proof

/-- One cell of `RAW`: `BYTE_BITS` = 8 (R5, R14). -/
abbrev Byte := BitVec 8

/-- One cell of `SMP`: `SAMPLE_BITS` = 32, a two's-complement word whose value is `Word.toInt` (R5, R15, R55). -/
abbrev Word := BitVec 32

end Sys2Proof
end

