-- ==== Sys2Proof/Syntax.lean ====
section
/-! DEFINITION. Syntax.lean: the eight operations of the opcode table, the two choices a command word carries, the
registers' labels, the nine host operations and the lines of a host program, and the host's container record. -/

namespace Sys2Proof

/-- The field `DIR` of the command word (R12, R56): decode moves `RAW` to `SMP`, encode moves `SMP` to `RAW`. -/
inductive Direction where
  | decode
  | encode
deriving DecidableEq, Repr

/-- The closed set `WIDTHS` of supported sample widths (R5, R78): one to four bytes per sample. -/
inductive Width where
  | one
  | two
  | three
  | four
deriving DecidableEq, Repr

/-- The width as the number of bytes per sample, the document's `sampleWidth` (R12). -/
def Width.bytes : Width → Nat
  | .one => 1
  | .two => 2
  | .three => 3
  | .four => 4

/-- The eight operations, one constructor per row of spec/opcode_table.json (R59).
A command has no operand field (R56): its operands are the registers and buffers of the block. -/
inductive Instr where
  /-- `DEC.1`, R72. -/
  | dec1
  /-- `DEC.2`, R73. -/
  | dec2
  /-- `DEC.3`, R74. -/
  | dec3
  /-- `DEC.4`, R75. -/
  | dec4
  /-- `ENC.1`, R87. -/
  | enc1
  /-- `ENC.2`, R88. -/
  | enc2
  /-- `ENC.3`, R89. -/
  | enc3
  /-- `ENC.4`, R90. -/
  | enc4
deriving DecidableEq, Repr

/-- The direction of an operation (the column `DIR` of R59). -/
def Instr.dir : Instr → Direction
  | .dec1 => .decode
  | .dec2 => .decode
  | .dec3 => .decode
  | .dec4 => .decode
  | .enc1 => .encode
  | .enc2 => .encode
  | .enc3 => .encode
  | .enc4 => .encode

/-- The sample width of an operation (the column `WIDTH` of R59). -/
def Instr.width : Instr → Width
  | .dec1 => .one
  | .dec2 => .two
  | .dec3 => .three
  | .dec4 => .four
  | .enc1 => .one
  | .enc2 => .two
  | .enc3 => .three
  | .enc4 => .four

/-- The operation a direction and a width select: the closed table of pairs that R78 asks for. -/
def Instr.ofDirWidth : Direction → Width → Instr
  | .decode, .one => .dec1
  | .decode, .two => .dec2
  | .decode, .three => .dec3
  | .decode, .four => .dec4
  | .encode, .one => .enc1
  | .encode, .two => .enc2
  | .encode, .three => .enc3
  | .encode, .four => .enc4

/-- The spelling of an operation in a host program (R62). -/
def Instr.mnemonic : Instr → String
  | .dec1 => "DEC.1"
  | .dec2 => "DEC.2"
  | .dec3 => "DEC.3"
  | .dec4 => "DEC.4"
  | .enc1 => "ENC.1"
  | .enc2 => "ENC.2"
  | .enc3 => "ENC.3"
  | .enc4 => "ENC.4"

/-- The registers of R10 and the two read-only length views of R25. -/
inductive Reg where
  | cmd
  | frameCount
  | status
  | err
  | idx
  | rawLen
  | smpLen
deriving DecidableEq, Repr

/-- The register numbers, which are labels and no bus addresses (R10, R25, R37). -/
def Reg.number : Reg → Nat
  | .cmd => 0
  | .frameCount => 1
  | .status => 2
  | .err => 3
  | .idx => 4
  | .rawLen => 5
  | .smpLen => 6

/-- The nine host operations of R100, with the operands R101 to R107 give them. -/
inductive HostOp where
  /-- `LOADRAW bytes`, R101. -/
  | loadRaw (bytes : List Byte)
  /-- `LOADSMP samples`, R102: the operand is a sequence of 32-bit words. -/
  | loadSmp (samples : List Word)
  /-- `SETFC n`, R103: the operand is a natural number. -/
  | setFc (n : Nat)
  /-- `ISSUE c`, R104: the operand is a 4-bit value, every value allowed. -/
  | issue (c : BitVec 4)
  /-- `RDSTATUS`, R105. -/
  | rdStatus
  /-- `RDRAW`, R106. -/
  | rdRaw
  /-- `RDSMP`, R106. -/
  | rdSmp
  /-- `RDREG r`, R106. -/
  | rdReg (r : Reg)
  /-- `RESET`, R107. -/
  | reset
deriving DecidableEq, Repr

/-- One line of a host program (R62): a host operation, the shorthand `WAIT` (R105), or the pseudo-form `DECA.w` (R64). -/
inductive HostLine where
  | op (o : HostOp)
  | wait
  | deca (w : BitVec 3)
deriving DecidableEq, Repr

/-- A container as the host sees it (R121): four header fields and the payload; no byte layout of the header is in the spec. -/
structure Container where
  channels : Nat
  sampleWidth : Nat
  frameRate : Nat
  frameCount : Nat
  payload : List Byte
deriving DecidableEq, Repr

/-- What a path of the host's file system names (R121, R124a): a container, or a file that is no readable container. -/
inductive FileEntry where
  | container (c : Container)
  | corrupt
deriving DecidableEq, Repr

end Sys2Proof
end

