-- ==== Sys2Proof/Config.lean ====
section
/-! DEFINITION. Config.lean: the parameters the spec leaves OPEN (R5; 92_eei_decisions.md D20, D21) and the free values it
leaves unspecified (93_implementation_defined.md U3, U5, U6), the latter opaque, so that nothing in Lean can know them. -/

namespace Sys2Proof

/-- The OPEN size parameters of R5; `none` is 'unbounded'. -/
structure Bounds where
  /-- `FC_BITS`: a frame count presented to the block is below two to this power (R5, D20). -/
  fcBits : Option Nat
  /-- `RAW_CAP` in bytes (R5, D21). -/
  rawCap : Option Nat
  /-- `SMP_CAP` in samples (R5, D21). -/
  smpCap : Option Nat
deriving DecidableEq, Repr

/-- The spec's model: counts and buffers are unbounded (R5, U11: 'default unbounded'). -/
def Bounds.unbounded : Bounds := { fcBits := none, rawCap := none, smpCap := none }

/-- The bounds of this machine: the default of U11 and R5, unbounded (DESIGN CHOICE, log entry 8). -/
def Config.bounds : Bounds := Bounds.unbounded

/-- U3: what `RDRAW` returns while `BUSY` (any byte sequence). FREE VALUE, assumption log entry 3. -/
opaque Config.freeRaw : Nat → List Byte

/-- U3: what `RDSMP` returns while `BUSY` (any sample sequence). FREE VALUE, assumption log entry 3. -/
opaque Config.freeSmp : Nat → List Word

/-- U3: what `RDREG CMD` returns while `BUSY` (any 4-bit value). FREE VALUE, assumption log entry 3. -/
opaque Config.freeCmd : Nat → BitVec 4

/-- U3: what `RDREG` of a count or a length returns while `BUSY`, `IDX` among the counts. FREE VALUE, assumption log entries 3
and 4. -/
opaque Config.freeCount : Nat → Nat

/-- U5: whether the container layer answers an out-of-range request by failing (`true`) or goes on without failing (`false`), so that
the codec's length check fails instead, given `startFrame`, `endFrame` and the total. FREE VALUE, assumption log entry 9. -/
opaque Config.rangeFailsInLayer : Int → Int → Nat → Bool

/-- U5, R124(d): the bytes a short read of a container returns, given `startFrame` and `endFrame`: how many and which, since the spec
says no more than "fewer bytes" (N16). FREE VALUE, assumption log entry 9. -/
opaque Config.shortRead : Container → Int → Int → List Byte

/-- N18, vector K8: whether the container layer accepts a seek to the end of a container that has frames.
FREE VALUE, assumption log entry 10. -/
opaque Config.seekToEndAccepted : Nat → Bool

/-- U6: what the file system holds at a path after a failed `writeContainer`: nothing, the old entry, or any entry.
FREE VALUE, assumption log entry 11. -/
opaque Config.fileAfterFailedWrite : Nat → Option FileEntry

end Sys2Proof
end

