-- ==== Sys2Proof/WellFormed.lean ====
section
/-! DEFINITION. WellFormed.lean: what is checked of a term before the machine is asked to act on it: the instruction (no operand
to check, R56), the width of a command word (R60), the bounds of an implementation and the operands presented under them
(R5, U11), the lines of a host program, and the container record (R121). -/

namespace Sys2Proof

/-- A width field that names a supported width (R12: 1, 2, 3, 4; the others are unsupported). -/
def supportedWidth (f : BitVec 3) : Bool :=
  f == 1#3 || f == 2#3 || f == 3#3 || f == 4#3

/-- An instruction is well formed when its width is one of the four: always so, since R56 gives a command no operand. -/
def Instr.wf (i : Instr) : Bool :=
  supportedWidth (BitVec.ofNat 3 i.width.bytes)

/-- A bounded implementation must have `RAW_CAP` at least four times `SMP_CAP` (R5, D21); a bound on one buffer alone is
acceptable only if it is the bound on `SMP`. -/
def Bounds.wf (b : Bounds) : Bool :=
  match b.rawCap, b.smpCap with
  | none, _ => true
  | some _, none => false
  | some r, some s => decide (4 * s ≤ r)

/-- A size is within an optional capacity. -/
def withinCap (cap : Option Nat) (n : Nat) : Bool :=
  match cap with
  | none => true
  | some c => decide (n ≤ c)

/-- A count is below two to the power of an optional width (R5: 'may not present a count of 2^FC_BITS or more'). -/
def withinBits (bits : Option Nat) (n : Nat) : Bool :=
  match bits with
  | none => true
  | some k => decide (n < 2 ^ k)

/-- The operand of a host operation can be presented to a block of these bounds (U11). `FC_BITS` bounds the count of `SETFC` and the
length of `LOADSMP`, which is the frame count of an encode and so what `IDX` counts to (R17, R109); `RAW_CAP` alone bounds `LOADRAW`
(DEDUCED, log entry 8). -/
def HostOp.fits (b : Bounds) : HostOp → Bool
  | .loadRaw bytes => withinCap b.rawCap bytes.length
  | .loadSmp samples => withinCap b.smpCap samples.length && withinBits b.fcBits samples.length
  | .setFc n => withinBits b.fcBits n
  | .issue _ => true
  | .rdStatus => true
  | .rdRaw => true
  | .rdSmp => true
  | .rdReg _ => true
  | .reset => true

/-- A line of a host program is well formed when its operand can be presented. -/
def HostLine.wf (b : Bounds) : HostLine → Bool
  | .op o => o.fits b
  | .wait => true
  | .deca _ => true

/-- The constraint R121 puts on a container record: the payload has exactly the bytes the header declares. -/
def Container.wf (c : Container) : Bool :=
  decide (c.payload.length = c.frameCount * c.channels * c.sampleWidth)

/-- A sample that fits a cell of `SMP` (R102, U7): in the signed 32-bit range. -/
def sampleFits (x : Int) : Bool :=
  decide (-2147483648 ≤ x) && decide (x ≤ 2147483647)

end Sys2Proof
end

