-- ==== Sys2Proof/Decode.lean ====
section
/-! DEFINITION. Decode.lean: from a command word (format `CMDW`, R56) to an operation or a rejection by name, total on every
value, and the encoder after it, written from the same fields. The block fetches nothing: its one 'instruction' is the command
word (R43), decoded the same way in every state (R61). -/

namespace Sys2Proof

/-- Why a value spells no operation. -/
inductive DecodeReject where
  /-- Raised by `decode`: `WIDTH` is 0, 5, 6 or 7 (R60). Safe: the block reports `UnsupportedConfiguration`. -/
  | unsupportedWidth (dir : Direction) (width : BitVec 3)
  /-- Raised by `decodeValue`: the value has more than the four bits of a command word (R60). Safe: nothing can be issued. -/
  | notACommandWord (value : Nat)
deriving DecidableEq, Repr

/-- `CMD[3]` (R12, R56): 0 = decode, 1 = encode. -/
def dirField (c : BitVec 4) : Direction :=
  if c.getLsbD 3 then .encode else .decode

/-- `CMD[2:0]` (R12, R56): the width as an unsigned number. -/
def widthField (c : BitVec 4) : BitVec 3 :=
  c.extractLsb' 0 3

/-- The supported widths by their field (R12); the other four values are unsupported (R60). -/
def Width.ofField (f : BitVec 3) : Option Width :=
  if f = 1#3 then some .one
  else if f = 2#3 then some .two
  else if f = 3#3 then some .three
  else if f = 4#3 then some .four
  else none

/-- The opcode map R59: the operation a command word selects, or the rejection R60. -/
def decode (c : BitVec 4) : Except DecodeReject Instr :=
  match Width.ofField (widthField c) with
  | some w => .ok (Instr.ofDirWidth (dirField c) w)
  | none => .error (.unsupportedWidth (dirField c) (widthField c))

/-- Decoding of any number: one that does not fit in four bits is no command word (R60, R61). -/
def decodeValue (v : Nat) : Except DecodeReject Instr :=
  if v < 16 then decode (BitVec.ofNat 4 v) else .error (.notACommandWord v)

/-- Decoding of a byte that holds a command word in its low four bits and zeros above them; total on every byte
(DESIGN CHOICE, log entry 19). -/
def decodeByte (b : Byte) : Except DecodeReject Instr :=
  decodeValue b.toNat

/-- The bit `DIR` of a direction (R56). -/
def Direction.bit : Direction → BitVec 1
  | .decode => 0#1
  | .encode => 1#1

/-- The field `WIDTH` of a width: the number of bytes itself, not an index into a table (R56). -/
def Width.field (w : Width) : BitVec 3 :=
  BitVec.ofNat 3 w.bytes

/-- The command word of a direction and a width: `DIR` above `WIDTH` (R56). -/
def commandWord (d : Direction) (w : Width) : BitVec 4 :=
  d.bit ++ w.field

/-- The word of an operation (R56, R59). -/
def encode (i : Instr) : BitVec 4 :=
  commandWord i.dir i.width

/-- The instruction the decoder reads from a row of spec/opcode_table.json whose bits are `w`: a command word is 4 bits, so
every bit of `w` above bit 3 must be zero, however many bits the row is given. -/
def decodeTableWord (_nbits w : Nat) : Option Instr :=
  match decodeValue w with
  | .ok i => some i
  | .error _ => none

/-- One row of the opcode table: an operation, and the mask and the bits it requires (R59: 'mask 0xF'). -/
structure OpcodeRow where
  instr : Instr
  mask : BitVec 4
  bits : BitVec 4
deriving DecidableEq, Repr

/-- The opcode map of R59, row by row as the spec's table has it. -/
def opcodeTable : List OpcodeRow :=
  [ { instr := .dec1, mask := 0xF#4, bits := 0x1#4 },
    { instr := .dec2, mask := 0xF#4, bits := 0x2#4 },
    { instr := .dec3, mask := 0xF#4, bits := 0x3#4 },
    { instr := .dec4, mask := 0xF#4, bits := 0x4#4 },
    { instr := .enc1, mask := 0xF#4, bits := 0x9#4 },
    { instr := .enc2, mask := 0xF#4, bits := 0xA#4 },
    { instr := .enc3, mask := 0xF#4, bits := 0xB#4 },
    { instr := .enc4, mask := 0xF#4, bits := 0xC#4 } ]

/-- A command word matches a row. -/
def OpcodeRow.hits (r : OpcodeRow) (c : BitVec 4) : Bool :=
  c &&& r.mask == r.bits

end Sys2Proof
end

