-- ==== Sys2Proof/Machine/State.lean ====
section
/-! DEFINITION. Machine/State.lean: the state of the machine as plain data. Seven fields are the architectural state of the block,
exactly the seven items of R10; three are the MODEL'S OWN (assumption log entries 1 to 3): the outside world's pending turns, the
replies the host has been given, and the counter that the free values of U3 are applied to. -/

namespace Sys2Proof.Machine

/-- `STATUS` (R16). -/
inductive Status where
  | idle
  | busy
  | done
  | error
deriving DecidableEq, Repr

/-- `ERR` (R21). Code 3 is reserved and never produced, so the type has three values (U8). -/
inductive Err where
  | none
  | malformedInput
  | unsupportedConfiguration
deriving DecidableEq, Repr

/-- What moves next (log entry 1): the host performs one of its nine operations, or the block takes the step it has enabled. -/
inductive Turn where
  | host (op : HostOp)
  | block
deriving DecidableEq, Repr

/-- What a host read returned (R105, R106). -/
inductive Reply where
  | status (st : Status) (e : Err)
  | raw (bytes : List Byte)
  | smp (samples : List Word)
  | reg (r : Reg) (value : Nat)
deriving DecidableEq, Repr

structure State where
  /-- Register 0, 4 bits (R12): the last value an accepted `ISSUE` wrote. -/
  cmd : BitVec 4
  /-- Register 1 (R13): the number of frames the host declares `RAW` to hold. -/
  frameCount : Nat
  /-- Register 2, 2 bits (R16). -/
  status : Status
  /-- Register 3, 2 bits (R21). -/
  err : Err
  /-- Register 4 (R17): the number of frames already converted. -/
  idx : Nat
  /-- The raw byte buffer (R14, R30): a finite sequence of bytes indexed from 0; cells at or beyond its length do not exist
  (DESIGN CHOICE: a sequence and no list of addressed cells, log entry 13). -/
  raw : List Byte
  /-- The sample buffer (R15, R30): a finite sequence of 32-bit words indexed from 0. -/
  smp : List Word
  /-- MODEL'S OWN (log entry 1): the turns still to come, oldest first; when there is none the block moves. -/
  turns : List Turn
  /-- MODEL'S OWN (log entry 2): what the host's reads returned, newest first. -/
  replies : List Reply
  /-- MODEL'S OWN (log entry 3): how many free values reads while `BUSY` have consumed. -/
  freeReads : Nat
deriving DecidableEq, Repr

/-- Where a step has no rule of the spec to follow: states that no run from reset reaches (Safety.lean, `Inv`). The machine stops
(DESIGN CHOICE, log entry 14). -/
inductive Fault where
  /-- Raised by `decodeFrame` and `encodeFrame` (Machine/Ops.lean): a read of a cell at or beyond the length of a buffer, which R7
  and R30 say does not exist. Safe. -/
  | absentCell
  /-- Raised by `decodeFrame` and `encodeFrame`: a write that is not an append, which R7 says this block never makes. Safe. -/
  | writeNotAppend
  /-- Raised by `decodeBlockStep` and `encodeBlockStep`: `BUSY` with `IDX` beyond the frame count, where neither R109 nor R110 enables
  a step. Safe. -/
  | noStepEnabled
  /-- Raised by `blockTurn` (Machine/HostOps.lean): `BUSY` with a command word that spells no operation; admission (R108) never leads
  there. Safe. -/
  | unsupportedInFlight
deriving DecidableEq, Repr

/-- What the machine does not accept. -/
inductive Refusal where
  /-- Raised by `exec` for an instruction that has no meaning yet (none is left). Safe. -/
  | notModelled (mnemonic : String)
  /-- Raised by `hostTurn` (Machine/HostOps.lean): bounds that R5 allows no implementation (`Bounds.wf`). Never raised under
  `Bounds.unbounded`. Safe. -/
  | boundsIllFormed
  /-- Raised by `hostTurn` (Machine/HostOps.lean) in an implementation with bounds: an operand larger than the block holds is refused
  (U11, D20, D21). Never raised under `Bounds.unbounded`. Safe. -/
  | overBound
deriving DecidableEq, Repr

/-- The outcome of a step or of a meaning. -/
abbrev Result := Host.Outcome State Fault Refusal

/-- The state after reset: every item at the value of R20. The three fields of the model's own start empty (DESIGN CHOICE,
log entry 15). -/
def State.reset : State :=
  { cmd := 0x0#4
    frameCount := 0
    status := .idle
    err := .none
    idx := 0
    raw := []
    smp := []
    turns := []
    replies := []
    freeReads := 0 }

end Sys2Proof.Machine
end

