-- ==== Sys2Proof/Machine/Operands.lean ====
section
/-! DEFINITION. Machine/Operands.lean: the operand forms of the block: cells and groups of a buffer (R7, R30, R33), the assembly of
bytes into a sample and back at each of the four widths (R51 to R58, R72 to R75, R87 to R90), and the whole-buffer functions the
transactions compute (R76, R91). -/

namespace Sys2Proof.Machine

/-- `MemRead(space, addr, n)` (R7): the `n` cells from index `addr` on; defined only inside the buffer. -/
def memRead {α : Type} (buf : List α) (addr n : Nat) : Option (List α) :=
  if addr + n ≤ buf.length then some ((buf.drop addr).take n) else none

/-- `MemWrite(space, addr, n, v)` (R7): in this block every write is an append, so `addr` is the length of the buffer. -/
def memWrite {α : Type} (buf : List α) (addr : Nat) (cells : List α) : Option (List α) :=
  if addr = buf.length then some (buf ++ cells) else none

/-- One byte of the space `RAW` (R30), `none` at an index that does not exist. -/
def readRaw (s : State) (a : Nat) : Option Byte := s.raw[a]?

/-- One sample of the space `SMP` (R30), `none` at an index that does not exist. -/
def readSmp (s : State) (a : Nat) : Option Word := s.smp[a]?

/-- The space `RAW` written out as addressed cells, in the host's form. -/
def Memory.cellsFrom : Nat → List Byte → List Host.Cell
  | _, [] => []
  | a, b :: rest => (a, b) :: Memory.cellsFrom (a + 1) rest

/-- The canonical form of an addressed memory of this block: the addresses from `a` on, each once, rising by one, with no hole,
since a buffer has a length and no cell beyond it (R30, U10). -/
def Memory.wfFrom : Nat → List Host.Cell → Bool
  | _, [] => true
  | a, (k, _) :: rest => k == a && Memory.wfFrom (a + 1) rest

/-- The memory of a state, cell by cell. -/
def Memory.cells (s : State) : List Host.Cell := Memory.cellsFrom 0 s.raw

/-- The canonical form of the memory of a state. -/
def Memory.wf (s : State) : Bool := Memory.wfFrom 0 (Memory.cells s)

/-- `le_w` (R7): the unsigned little-endian value of a group of bytes. -/
def leValue : List Byte → Nat
  | [] => 0
  | b :: rest => b.toNat + 256 * leValue rest

/-- The four bytes of a 32-bit little-endian pattern, lane 0 least significant (R32, R54, R57). -/
def leWord (b0 b1 b2 b3 : Byte) : Word :=
  b3 ++ (b2 ++ (b1 ++ b0))

/-- The fill byte of the 24-bit decode: bit 7 of the third byte, eight times (R74). -/
def fillByte (b2 : Byte) : Byte :=
  if b2.getLsbD 7 then 0xFF#8 else 0x00#8

/-- `unpack_1` (R72): the byte is unsigned; subtract the bias 128. -/
def unpack1 (b0 : Byte) : Word :=
  BitVec.ofInt 32 ((b0.toNat : Int) - 128)

/-- `unpack_2` (R73): a signed 16-bit little-endian group. -/
def unpack2 (b0 b1 : Byte) : Word :=
  (b1 ++ b0).signExtend 32

/-- `unpack_3` (R74): the synthetic fourth byte, then a signed 32-bit little-endian group. -/
def unpack3 (b0 b1 b2 : Byte) : Word :=
  leWord b0 b1 b2 (fillByte b2)

/-- `unpack_4` (R75): a signed 32-bit little-endian group. -/
def unpack4 (b0 b1 b2 b3 : Byte) : Word :=
  leWord b0 b1 b2 b3

/-- `unpack_w` of a group (R71): a function of exactly the `w` bytes of the group. -/
def unpackGroup : Width → List Byte → Option Word
  | .one, [b0] => some (unpack1 b0)
  | .two, [b0, b1] => some (unpack2 b0 b1)
  | .three, [b0, b1, b2] => some (unpack3 b0 b1 b2)
  | .four, [b0, b1, b2, b3] => some (unpack4 b0 b1 b2 b3)
  | _, _ => none

/-- `pack_1` (R87): the exact sum with the bias, reduced modulo 256. -/
def pack1 (s : Word) : List Byte :=
  [BitVec.ofInt 8 (s.toInt + 128)]

/-- `pack_2` (R88): the low sixteen bits, least significant byte first. -/
def pack2 (s : Word) : List Byte :=
  [s.extractLsb' 0 8, s.extractLsb' 8 8]

/-- `pack_3` (R89): the low three bytes; the top byte is discarded. -/
def pack3 (s : Word) : List Byte :=
  [s.extractLsb' 0 8, s.extractLsb' 8 8, s.extractLsb' 16 8]

/-- `pack_4` (R90): all four bytes. -/
def pack4 (s : Word) : List Byte :=
  [s.extractLsb' 0 8, s.extractLsb' 8 8, s.extractLsb' 16 8, s.extractLsb' 24 8]

/-- `pack_w` of a sample (R86). -/
def packGroup : Width → Word → List Byte
  | .one, s => pack1 s
  | .two, s => pack2 s
  | .three, s => pack3 s
  | .four, s => pack4 s

/-- `wrap_w` (R7): the signed 8w-bit value congruent to an integer modulo 2^(8w). -/
def wrapInt (w : Width) (x : Int) : Int :=
  (x + 2 ^ (8 * w.bytes - 1)) % 2 ^ (8 * w.bytes) - 2 ^ (8 * w.bytes - 1)

/-- The signed range of a width (R77). -/
def inRange (w : Width) (x : Int) : Prop :=
  -(2 ^ (8 * w.bytes - 1)) ≤ x ∧ x < 2 ^ (8 * w.bytes - 1)

/-- The sample of frame `i`: the group at `i*w` (R33), converted (R71). -/
def frameSample (w : Width) (raw : List Byte) (i : Nat) : Option Word :=
  (memRead raw (i * w.bytes) w.bytes).bind (unpackGroup w)

/-- The conversion of the first `n` frames of `raw`, frame 0 first (R39, R109). -/
def decodePrefix (w : Width) (raw : List Byte) : Nat → Option (List Word)
  | 0 => some []
  | n + 1 =>
    (decodePrefix w raw n).bind fun before =>
      (frameSample w raw n).map fun v => before ++ [v]

/-- The function `decode(raw, n, w)` a decode transaction computes (R76); `none` is `raise MalformedInput`. -/
def decodeBuffer (raw : List Byte) (n : Nat) (w : Width) : Option (List Word) :=
  if raw.length = n * w.bytes then decodePrefix w raw n else none

/-- The function `encode(smp, w)` an encode transaction computes (R91). -/
def encodeBuffer (smp : List Word) (w : Width) : List Byte :=
  smp.flatMap (packGroup w)

end Sys2Proof.Machine
end

