-- ==== Sys2Proof/Machine/Flags.lean ====
section
/-! DEFINITION. Machine/Flags.lean: the block has no status flags and no condition codes (R19); what stands in their place are the
codes of the two report registers (R16, R21) and the values the registers and the length views read as (R10, R25). -/

namespace Sys2Proof.Machine

/-- The two bits of `STATUS` (R16). -/
def Status.code : Status → BitVec 2
  | .idle => 0#2
  | .busy => 1#2
  | .done => 2#2
  | .error => 3#2

/-- The two bits of `ERR` (R21). -/
def Err.code : Err → BitVec 2
  | .none => 0#2
  | .malformedInput => 1#2
  | .unsupportedConfiguration => 2#2

/-- The value of a register or of a length view, as a number (R10, R25, R106; DESIGN CHOICE, log entry 16). -/
def regValue (r : Reg) (s : State) : Nat :=
  match r with
  | .cmd => s.cmd.toNat
  | .frameCount => s.frameCount
  | .status => s.status.code.toNat
  | .err => s.err.code.toNat
  | .idx => s.idx
  | .rawLen => s.raw.length
  | .smpLen => s.smp.length

/-- `N`, the frame count of the transaction in flight (R109): `FRAMECOUNT` for a decode, `len(SMP)` for an encode. -/
def frames (s : State) : Nat :=
  match dirField s.cmd with
  | .decode => s.frameCount
  | .encode => s.smp.length

/-- What `RDREG` of a register returns while `BUSY`: `STATUS` and `ERR` as they are (R106), any value of the register's type for
every other (R165, D14, U3). For `IDX` that includes more than the 0 to `N` of R17 (DEDUCED, log entry 4). -/
def busyRegValue (r : Reg) (s : State) : Nat :=
  match r with
  | .cmd => (Config.freeCmd s.freeReads).toNat
  | .frameCount => Config.freeCount s.freeReads
  | .status => s.status.code.toNat
  | .err => s.err.code.toNat
  | .idx => Config.freeCount s.freeReads
  | .rawLen => Config.freeCount s.freeReads
  | .smpLen => Config.freeCount s.freeReads

end Sys2Proof.Machine
end

