-- ==== Sys2Proof/Machine/Ops.lean ====
section
/-! DEFINITION. Machine/Ops.lean: the shared operations of the block: raising an error (R147), admission (R108), the two frame
steps (R71, R86) and completion (R110). The block has no return from an error (R148): an `ERROR` stands until the next accepted
`ISSUE`, whose admission overwrites it, or a `RESET`. -/

namespace Sys2Proof.Machine

/-- The two errors of the block (R141). -/
inductive CodecError where
  | malformedInput
  | unsupportedConfiguration
deriving DecidableEq, Repr

/-- The code an error leaves in `ERR` (R147). -/
def CodecError.err : CodecError → Err
  | .malformedInput => .malformedInput
  | .unsupportedConfiguration => .unsupportedConfiguration

/-- `raise E` (R147): the one way an error is taken. `STATUS` and `ERR` are written and nothing else; there is no handler. -/
def raiseError (e : CodecError) (s : State) : State :=
  { s with status := .error, err := e.err }

/-- The write of `CMD` by an accepted `ISSUE` (R104): all four bits as given, legal or not (R12). -/
def writeCmd (c : BitVec 4) (s : State) : State :=
  { s with cmd := c }

/-- The admitted end of R108 for a decode: the output buffer is emptied. -/
def startDecode (s : State) : State :=
  { s with smp := [], idx := 0, err := .none, status := .busy }

/-- The admitted end of R108 for an encode: the output buffer is emptied. -/
def startEncode (s : State) : State :=
  { s with raw := [], idx := 0, err := .none, status := .busy }

/-- Admission of a decode of a supported width: check 2 of R108, with the product computed exactly (D20). -/
def admitDecode (w : Width) (s : State) : State :=
  if s.raw.length = s.frameCount * w.bytes then startDecode s else raiseError .malformedInput s

/-- Admission of an encode of a supported width: there is no second check (R108, R85). -/
def admitEncode (s : State) : State :=
  startEncode s

/-- `COMPLETE` (R110). -/
def complete (s : State) : State :=
  { s with status := .done }

/-- The frame step of a decode (R71): read the group, convert it, append the sample, count the frame. The append is made whatever the
length of `SMP`, in a block with bounds past `SMP_CAP` too (R5 bounds what the host presents; DESIGN CHOICE, log entry 8). -/
def decodeFrame (w : Width) (s : State) : Result :=
  match memRead s.raw (s.idx * w.bytes) w.bytes with
  | none => .fault .absentCell
  | some g =>
    match unpackGroup w g with
    | none => .fault .absentCell
    | some v =>
      match memWrite s.smp s.idx [v] with
      | none => .fault .writeNotAppend
      | some smp => .next { s with smp := smp, idx := s.idx + 1 }

/-- The frame step of an encode (R86): read the sample, convert it, append the group, count the frame. The append is made whatever the
length of `RAW`, in a block with bounds past `RAW_CAP` too, which an encode of a `SMP` longer than `SMP_CAP` reaches (DESIGN CHOICE, log
entry 8). -/
def encodeFrame (w : Width) (s : State) : Result :=
  match memRead s.smp s.idx 1 with
  | some [v] =>
    match memWrite s.raw (s.idx * w.bytes) (packGroup w v) with
    | none => .fault .writeNotAppend
    | some raw => .next { s with raw := raw, idx := s.idx + 1 }
  | _ => .fault .absentCell

/-- The block's step of a decode in flight: `FRAME` while `IDX` is below `FRAMECOUNT`, `COMPLETE` when it is there (R109, R110). -/
def decodeBlockStep (w : Width) (s : State) : Result :=
  if s.idx < s.frameCount then decodeFrame w s
  else if s.idx = s.frameCount then .next (complete s)
  else .fault .noStepEnabled

/-- The block's step of an encode in flight: the frame count is `len(SMP)` (R109, R110, D19). -/
def encodeBlockStep (w : Width) (s : State) : Result :=
  if s.idx < s.smp.length then encodeFrame w s
  else if s.idx = s.smp.length then .next (complete s)
  else .fault .noStepEnabled

/-- What the block does with a decode command of width `w`. Presented while the block is not `BUSY`, it is written to `CMD` and
admitted (R104, R108); the command in flight advances by one block step (R109, R110); presented while another command is in
flight it is dropped (R104). DESIGN CHOICE: one meaning covers the three, log entry 6. -/
def runDecode (w : Width) (s : State) : Result :=
  match s.status with
  | .busy => if s.cmd = commandWord .decode w then decodeBlockStep w s else .next s
  | _ => .next (admitDecode w (writeCmd (commandWord .decode w) s))

/-- What the block does with an encode command of width `w`: as `runDecode`, in the other direction. -/
def runEncode (w : Width) (s : State) : Result :=
  match s.status with
  | .busy => if s.cmd = commandWord .encode w then encodeBlockStep w s else .next s
  | _ => .next (admitEncode (writeCmd (commandWord .encode w) s))

end Sys2Proof.Machine
end

