-- ==== Sys2Proof/Machine/DecodeFamily.lean ====
section
/-! DEFINITION. Machine/DecodeFamily.lean: the meanings of `DEC.1` to `DEC.4` (spec/40_decode_unpack.md). Each covers the whole life of
its command, one step at a time: admission with the error `MalformedInput`, the frame step with the conversion of its own width,
and completion (Machine/Ops.lean). -/

namespace Sys2Proof.Machine

/-- `DEC.1`, R72: bytes with bias 128. -/
def execDec1 (s : State) : Result := runDecode .one s

/-- `DEC.2`, R73: signed 16-bit little-endian groups. -/
def execDec2 (s : State) : Result := runDecode .two s

/-- `DEC.3`, R74: signed 24-bit little-endian groups, sign-extended through the fill byte. -/
def execDec3 (s : State) : Result := runDecode .three s

/-- `DEC.4`, R75: signed 32-bit little-endian groups. -/
def execDec4 (s : State) : Result := runDecode .four s

end Sys2Proof.Machine
end

