-- ==== Sys2Proof/Machine/EncodeFamily.lean ====
section
/-! DEFINITION. Machine/EncodeFamily.lean: the meanings of `ENC.1` to `ENC.4` (spec/41_encode_pack.md). Each covers the whole life of its
command, one step at a time: admission, which cannot fail at a supported width (R85), the frame step with the conversion of its
own width, and completion (Machine/Ops.lean). -/

namespace Sys2Proof.Machine

/-- `ENC.1`, R87: add the bias 128, wrap to 8 bits. -/
def execEnc1 (s : State) : Result := runEncode .one s

/-- `ENC.2`, R88: the low 16 bits, little-endian. -/
def execEnc2 (s : State) : Result := runEncode .two s

/-- `ENC.3`, R89: the low 24 bits, little-endian; the top byte is discarded. -/
def execEnc3 (s : State) : Result := runEncode .three s

/-- `ENC.4`, R90: all 32 bits, little-endian. -/
def execEnc4 (s : State) : Result := runEncode .four s

end Sys2Proof.Machine
end

