-- ==== Sys2Proof/Machine/HostOps.lean ====
section
/-! DEFINITION. Machine/HostOps.lean: one turn of the host, that is one of the nine operations of R100, and one turn of the block. -/

namespace Sys2Proof.Machine

/-- A read gives the host its reply and changes nothing else (R105, R106). -/
def reply (r : Reply) (s : State) : State :=
  { s with replies := r :: s.replies }

/-- A read that returns a free value counts it, so that the next one is fresh (U3, log entry 3). -/
def freeReply (r : Reply) (s : State) : State :=
  { s with replies := r :: s.replies, freeReads := s.freeReads + 1 }

/-- `LOADRAW` on a block that is not `BUSY` (R101). -/
def loadRaw (bytes : List Byte) (s : State) : State :=
  { s with raw := bytes }

/-- `LOADSMP` on a block that is not `BUSY` (R102). -/
def loadSmp (samples : List Word) (s : State) : State :=
  { s with smp := samples }

/-- `SETFC` on a block that is not `BUSY` (R103). -/
def setFrameCount (n : Nat) (s : State) : State :=
  { s with frameCount := n }

/-- `RESET` (R107, R160, R161): every item of the block's state to its reset value, from any state. The turns to come and what the
host has read are not the block's state. -/
def resetBlock (s : State) : State :=
  { State.reset with turns := s.turns, replies := s.replies, freeReads := s.freeReads }

/-- `ISSUE` of a word on a block that is not `BUSY` (R104, R108): the operation it spells, or `UnsupportedConfiguration` (R60, R143),
which is check 1 and so comes before the length (R145). -/
def issueWord (c : BitVec 4) (s : State) : Result :=
  match decode c with
  | .ok i => exec i s
  | .error _ => .next (raiseError .unsupportedConfiguration (writeCmd c s))

/-- `RDREG` while `BUSY`: `STATUS` and `ERR` are defined (R106), every other register is a free value (R165, U3). -/
def busyReadReg (r : Reg) (s : State) : State :=
  match r with
  | .status => reply (.reg .status (busyRegValue .status s)) s
  | .err => reply (.reg .err (busyRegValue .err s)) s
  | .cmd => freeReply (.reg .cmd (busyRegValue .cmd s)) s
  | .frameCount => freeReply (.reg .frameCount (busyRegValue .frameCount s)) s
  | .idx => freeReply (.reg .idx (busyRegValue .idx s)) s
  | .rawLen => freeReply (.reg .rawLen (busyRegValue .rawLen s)) s
  | .smpLen => freeReply (.reg .smpLen (busyRegValue .smpLen s)) s

/-- A host operation while `BUSY` (the third column of R100): writes are dropped (R164), reads of anything but `STATUS` and `ERR`
return free values (R165), `RDSTATUS` and `RESET` are as ever. -/
def hostBusy (op : HostOp) (s : State) : Result :=
  match op with
  | .loadRaw _ => .next s
  | .loadSmp _ => .next s
  | .setFc _ => .next s
  | .issue _ => .next s
  | .rdStatus => .next (reply (.status s.status s.err) s)
  | .rdRaw => .next (freeReply (.raw (Config.freeRaw s.freeReads)) s)
  | .rdSmp => .next (freeReply (.smp (Config.freeSmp s.freeReads)) s)
  | .rdReg r => .next (busyReadReg r s)
  | .reset => .next (resetBlock s)

/-- A host operation on a block that is not `BUSY` (the second column of R100). -/
def hostReady (op : HostOp) (s : State) : Result :=
  match op with
  | .loadRaw bytes => .next (loadRaw bytes s)
  | .loadSmp samples => .next (loadSmp samples s)
  | .setFc n => .next (setFrameCount n s)
  | .issue c => issueWord c s
  | .rdStatus => .next (reply (.status s.status s.err) s)
  | .rdRaw => .next (reply (.raw s.raw) s)
  | .rdSmp => .next (reply (.smp s.smp) s)
  | .rdReg r => .next (reply (.reg r (regValue r s)) s)
  | .reset => .next (resetBlock s)

/-- One turn of the host on a block of given bounds: bounds that R5 forbids are no block's; an operand the block cannot hold is
refused (U11), before anything else (DESIGN CHOICE, log entry 8); otherwise the operation takes effect as R100 says for a block that
is `BUSY` or not. -/
def hostTurn (b : Bounds) (op : HostOp) (s : State) : Result :=
  if b.wf then
    if op.fits b then
      match s.status with
      | .busy => hostBusy op s
      | _ => hostReady op s
    else .refused .overBound
  else .refused .boundsIllFormed

/-- One turn of the block: while `BUSY` it takes the one step it has enabled, that of the command in `CMD` (R43, R115); otherwise no
step of the block is enabled and nothing changes (R152, R160; DESIGN CHOICE, log entry 1). -/
def blockTurn (s : State) : Result :=
  match s.status with
  | .busy =>
    match decode s.cmd with
    | .ok i => exec i s
    | .error _ => .fault .unsupportedInFlight
  | _ => .next s

/-- One turn of whoever moves next: the oldest pending turn, and the block on its own when none is pending (R172; DESIGN CHOICE, log
entry 1). -/
def takeTurn (b : Bounds) (s : State) : Result :=
  match s.turns with
  | [] => blockTurn s
  | .block :: rest => blockTurn { s with turns := rest }
  | .host op :: rest => hostTurn b op { s with turns := rest }

end Sys2Proof.Machine
end

