-- ==== Sys2Proof/Machine/Step.lean ====
section
/-! DEFINITION. Machine/Step.lean: one step of the machine, and how a command is placed where the next step takes it. -/

namespace Sys2Proof.Machine

/-- One step: one turn of the host or of the block, under the bounds of this machine. -/
def step (s : State) : Host.Outcome State Fault Refusal :=
  takeTurn Config.bounds s

/-- The state in which the very next step is the host's `ISSUE` of the command word `w` (R43: the block's one 'instruction' is the word
that `ISSUE` writes; DESIGN CHOICE, log entry 5). A block that is `BUSY` accepts no command (R104), so it is taken out of its transaction. A value
that is no 4-bit word cannot be issued and changes nothing. -/
def State.withFetchWord (s : State) (_nbits w : Nat) : State :=
  if w < 16 then
    { s with
      status := if s.status = .busy then .idle else s.status
      turns := .host (.issue (BitVec.ofNat 4 w)) :: s.turns }
  else s

end Sys2Proof.Machine
end

