-- ==== Sys2Proof/Machine/Atomic.lean ====
section
/-! DEFINITION. Machine/Atomic.lean: a transaction as one atomic step (R111), the document's own view of a call. The stepped machine of
Machine/Step.lean is the normative one where `BUSY` is observable; that the two agree is a statement about both. -/

namespace Sys2Proof.Machine

/-- The atomic transaction of an operation, its width already known to be supported (R111). -/
def transact (i : Instr) (s : State) : State :=
  match i.dir with
  | .decode =>
    match decodeBuffer s.raw s.frameCount i.width with
    | none => raiseError .malformedInput s
    | some smp => { s with smp := smp, idx := s.frameCount, err := .none, status := .done }
  | .encode =>
    { s with raw := encodeBuffer s.smp i.width, idx := s.smp.length, err := .none, status := .done }

/-- `issue_atomic(c)` (R111). -/
def issueAtomic (c : BitVec 4) (s : State) : State :=
  match decode c with
  | .ok i => transact i (writeCmd c s)
  | .error _ => raiseError .unsupportedConfiguration (writeCmd c s)

end Sys2Proof.Machine
end

