-- ==== Sys2Proof/Machine/HostPrograms.lean ====
section
/-! DEFINITION. Machine/HostPrograms.lean: HOST SOFTWARE around the block: the lines of a host program (R62), the shorthand `WAIT` (R105), the
pseudo-form `DECA.w` (R64), and the document's calls `decode` and `encode` as host programs (R113, R114). -/

namespace Sys2Proof.Machine

/-- One outcome after another: the first fault or refusal ends the run. -/
def andThen (r : Result) (f : State → Result) : Result :=
  match r with
  | .next s => f s
  | .fault e => .fault e
  | .refused e => .refused e

/-- The block turns a transaction in flight still takes (R115): its frames, and `COMPLETE`. -/
def turnsLeft (s : State) : Nat :=
  frames s - s.idx + 1

/-- `WAIT`: `RDSTATUS` until it does not return `BUSY`, the block taking one step between two polls (DESIGN CHOICE, log entry 7), at most `k` polls. -/
def waitFor : Nat → State → Result
  | 0, s => .next s
  | k + 1, s =>
    andThen (hostTurn Config.bounds .rdStatus s) fun s =>
      match s.status with
      | .busy => andThen (blockTurn s) (waitFor k)
      | _ => .next s

/-- `WAIT` (R105): it ends after finitely many polls, one more than the block turns left (R115). -/
def wait (s : State) : Result :=
  waitFor (turnsLeft s + 1) s

/-- The frame count that `DECA.w` writes (R64): `len(RAW) div w`, and 0 for `w` = 0. -/
def decaCount (w : BitVec 3) (s : State) : Nat :=
  if w = 0#3 then 0 else s.raw.length / w.toNat

/-- One line of a host program. -/
def performLine (line : HostLine) (s : State) : Result :=
  match line with
  | .op o => hostTurn Config.bounds o s
  | .wait => wait s
  | .deca w =>
    andThen (hostTurn Config.bounds (.setFc (decaCount w s)) s) (hostTurn Config.bounds (.issue (0#1 ++ w)))

/-- A host program, line by line (R62). The block moves only inside `WAIT`: between two other lines it takes no step, so that an `RDSTATUS`
straight after an admitted `ISSUE` sees `BUSY` (DESIGN CHOICE, log entry 7; the spec gives only weak fairness, R172). -/
def perform : List HostLine → State → Result
  | [], s => .next s
  | line :: rest, s => andThen (performLine line s) (perform rest)

/-- The error classes a host function fails with: the document's three (R140), the refusal of a sample that fits no cell (U7), and the
model's own report that the machine stopped under the host. -/
inductive HostError where
  | malformedInput
  | unsupportedConfiguration
  | ioError
  | sampleRefused
  | blockStopped
deriving DecidableEq, Repr

/-- What a host function hands its caller: a value, or an error and no data (R153). -/
inductive Answer (α : Type) where
  | value (a : α)
  | error (e : HostError)
deriving DecidableEq, Repr

/-- The error class the host program makes of the last `RDSTATUS` (R113, R114); `none` when it returned neither error. -/
def statusError (s : State) : Option HostError :=
  match s.replies.head? with
  | some (.status .error .unsupportedConfiguration) => some .unsupportedConfiguration
  | some (.status .error .malformedInput) => some .malformedInput
  | _ => none

/-- A width that can be put in a command word: an integer in 0..7 (R60, R113). -/
def widthFits (w : Int) : Bool :=
  decide (0 ≤ w) && decide (w ≤ 7)

/-- The last reply as a sample sequence: what `return RDSMP` hands back (R113). -/
def lastSamples (s : State) : Answer (List Word) :=
  match s.replies.head? with
  | some (.smp samples) => .value samples
  | _ => .error .blockStopped

/-- The last reply as a byte sequence: what `return RDRAW` hands back (R114). -/
def lastBytes (s : State) : Answer (List Byte) :=
  match s.replies.head? with
  | some (.raw bytes) => .value bytes
  | _ => .error .blockStopped

/-- The end of both host programs: the error of the last `RDSTATUS`, or the buffer that one more read returns. -/
def readResult {α : Type} (line : HostLine) (last : State → Answer α) (s : State) : Answer α × State :=
  match statusError s with
  | some e => (.error e, s)
  | none =>
    match performLine line s with
    | .next t => (last t, t)
    | .fault _ => (.error .blockStopped, s)
    | .refused _ => (.error .blockStopped, s)

/-- The document's `decode(rawBytes, frameCount, sampleWidth)` as a host program (R113). -/
def decodeCall (rawBytes : List Byte) (frameCount : Nat) (w : Int) (s : State) : Answer (List Word) × State :=
  if widthFits w then
    match perform
        [.op (.loadRaw rawBytes), .op (.setFc frameCount), .op (.issue (BitVec.ofInt 4 w)), .wait, .op .rdStatus] s with
    | .next t => readResult (.op .rdSmp) lastSamples t
    | .fault _ => (.error .blockStopped, s)
    | .refused _ => (.error .blockStopped, s)
  else (.error .unsupportedConfiguration, s)

/-- The two-operand `decode(bytes, sampleWidth)` (R63, R64, R113): the same with `frameCount = len(bytes) div w`, 0 for `w` = 0. -/
def decodeCall2 (rawBytes : List Byte) (w : Int) (s : State) : Answer (List Word) × State :=
  decodeCall rawBytes (rawBytes.length / w.toNat) w s

/-- The document's `encode(sampleSequence, sampleWidth)` as a host program (R114); the samples are integers, and one that fits no
cell is refused (R102, U7). -/
def encodeCall (samples : List Int) (w : Int) (s : State) : Answer (List Byte) × State :=
  if widthFits w then
    if samples.all sampleFits then
      match perform
          [.op (.loadSmp (samples.map (BitVec.ofInt 32))), .op (.issue (BitVec.ofInt 4 (8 + w))), .wait, .op .rdStatus] s with
      | .next t => readResult (.op .rdRaw) lastBytes t
      | .fault _ => (.error .blockStopped, s)
      | .refused _ => (.error .blockStopped, s)
    else (.error .sampleRefused, s)
  else (.error .unsupportedConfiguration, s)

end Sys2Proof.Machine
end

