-- ==== Sys2Proof/Machine/ContainerHost.lean ====
section
/-! DEFINITION. Machine/ContainerHost.lean: HOST SOFTWARE, outside the block (R120): the container functions `readContainer` and
`writeContainer` (spec/43_container_host.md) over an abstract file system (R121), calling the block only through the host programs
of Machine/HostPrograms.lean. -/

namespace Sys2Proof.Machine

/-- The host's world: the block, the file system as a map from paths to entries (R121, log entry 20), the open handle (R127), and the counter that
the free values of U6 are applied to. None of it but `block` is state of the block (R23). -/
structure World where
  block : State
  files : List (String × FileEntry)
  handle : Option String
  freeFiles : Nat
deriving DecidableEq, Repr

/-- What the outside world does to one call's file operations: whether each succeeds (R124a, R126, R128). An input of the call (DESIGN CHOICE, log
entry 18). -/
structure IoEvents where
  openOk : Bool
  readOk : Bool
  writeOk : Bool
  closeOk : Bool
deriving DecidableEq, Repr

/-- Every file operation of the call succeeds. -/
def IoEvents.fine : IoEvents := { openOk := true, readOk := true, writeOk := true, closeOk := true }

/-- The entry of a path. -/
def lookupFile (path : String) (fs : List (String × FileEntry)) : Option FileEntry :=
  fs.lookup path

/-- The file system with the entry of a path replaced, or removed. -/
def setFile (path : String) (e : Option FileEntry) (fs : List (String × FileEntry)) : List (String × FileEntry) :=
  match e with
  | some e => (path, e) :: fs.filter (fun f => f.1 != path)
  | none => fs.filter (fun f => f.1 != path)

/-- Opening takes the handle (R127). -/
def openHandle (path : String) (wd : World) : World := { wd with handle := some path }

/-- Closing releases the handle, on every exit path, whether the close itself succeeds or not (R127). -/
def closeHandle (wd : World) : World := { wd with handle := none }

/-- The `finally` of both functions (R122, R125, R127): close; a failure of the close is an I/O error, unless the call had failed
already and keeps its own error (DESIGN CHOICE, log entry 12). -/
def finish {α : Type} (io : IoEvents) (a : Answer α) (wd : World) : Answer α × World :=
  match a with
  | .error e => (.error e, closeHandle wd)
  | .value v => if io.closeOk then (.value v, closeHandle wd) else (.error .ioError, closeHandle wd)

/-- The number of frames asked for (R122): `T - startFrame` when `endFrame` is 0, else `endFrame - startFrame + 1`; it can be zero or
less (R123, R124d). The frame numbers are integers, since a negative one can be passed (U5). -/
def frameRequest (startFrame endFrame : Int) (total : Nat) : Int :=
  if endFrame = 0 then (total : Int) - startFrame else endFrame - startFrame + 1

/-- The frame range does not lie inside the container (U5): a negative argument, a start beyond the end, or an end that is not the
sentinel 0 and lies at or beyond the total or before the start. -/
def rangeOutside (startFrame endFrame : Int) (total : Nat) : Bool :=
  decide (startFrame < 0) || decide (endFrame < 0) || decide ((total : Int) < startFrame) ||
    (decide (endFrame ≠ 0) && (decide ((total : Int) ≤ endFrame) || decide (endFrame < startFrame)))

/-- The payload bytes of `n` frames of width `w` from frame `startFrame` on, as many as there are (R122). -/
def payloadSlice (c : Container) (startFrame n : Nat) : List Byte :=
  (c.payload.drop (startFrame * c.sampleWidth)).take (n * c.sampleWidth)

/-- What a read that does not fail returns for a range outside the container: fewer bytes than asked for (R124d, U5). How many and
which bytes they are, for a negative `startFrame` as for any other, is a free value (log entry 9). -/
def shortSlice (c : Container) (startFrame endFrame n : Int) : List Byte :=
  (Config.shortRead c startFrame endFrame).take (n.toNat * c.sampleWidth - 1)

/-- What the container layer does with a request (R122, R124d, U5, N18): the bytes it returns, or `none` for a failure.
Inside the container it returns exactly the frames. Outside it, it fails or returns fewer bytes than asked for (log entry 9). A seek to
the end of a container that has frames is accepted or not (log entry 10). -/
def containerRead (io : IoEvents) (c : Container) (startFrame endFrame : Int) : Option (List Byte) :=
  let n := frameRequest startFrame endFrame c.frameCount
  if io.readOk then
    if rangeOutside startFrame endFrame c.frameCount then
      if Config.rangeFailsInLayer startFrame endFrame c.frameCount then none
      else some (shortSlice c startFrame endFrame n)
    else if decide (startFrame = c.frameCount) && decide (startFrame ≠ 0) && !Config.seekToEndAccepted c.frameCount then none
    else some (payloadSlice c startFrame.toNat n.toNat)
  else none

/-- The class a count below one fails with when the container layer did not fail: what the codec's checks make of a length that matches
no such count, the width checked first (R124c, R124d, R145; DESIGN CHOICE, log entry 9). -/
def countError (c : Container) : HostError :=
  if 1 ≤ c.sampleWidth ∧ c.sampleWidth ≤ 4 then .malformedInput else .unsupportedConfiguration

/-- The answer of a call of `decode` together with the container's width and rate (R122). -/
def withMetadata (c : Container) (a : Answer (List Word)) : Answer (List Word × Nat × Nat) :=
  match a with
  | .value samples => .value (samples, c.sampleWidth, c.frameRate)
  | .error e => .error e

/-- The body of `readContainer` once the container is open (R122). A count below one outside the container cannot be presented to the
block, which sees nothing of it (U5); the class is the container layer's or the codec's, as `Config.rangeFailsInLayer` has it. -/
def readOpen (io : IoEvents) (c : Container) (startFrame endFrame : Int) (wd : World) :
    Answer (List Word × Nat × Nat) × World :=
  let n := frameRequest startFrame endFrame c.frameCount
  if c.channels ≠ 1 then (.error .unsupportedConfiguration, wd)
  else
    match containerRead io c startFrame endFrame with
    | none => (.error .ioError, wd)
    | some bytes =>
      if rangeOutside startFrame endFrame c.frameCount && decide (n < 1) then (.error (countError c), wd)
      else
        let r := decodeCall bytes n.toNat c.sampleWidth wd.block
        (withMetadata c r.1, { wd with block := r.2 })

/-- `readContainer(path, startFrame, endFrame)` (R122, R124). A missing or corrupt file, one whose payload is not what its header declares
among them (R121; DEDUCED, log entry 17), surfaces as an I/O error. -/
def readContainer (io : IoEvents) (path : String) (startFrame endFrame : Int) (wd : World) :
    Answer (List Word × Nat × Nat) × World :=
  match lookupFile path wd.files with
  | some (.container c) =>
    if io.openOk && c.wf then
      let r := readOpen io c startFrame endFrame (openHandle path wd)
      finish io r.1 r.2
    else (.error .ioError, wd)
  | _ => (.error .ioError, wd)

/-- A failed `writeContainer` leaves the entry of its path unconstrained (R126, U6, log entry 11). -/
def spoilFile (path : String) (wd : World) : World :=
  { wd with
    files := setFile path (Config.fileAfterFailedWrite wd.freeFiles) wd.files
    freeFiles := wd.freeFiles + 1 }

/-- The record that closing the container commits (R125): mono, the frame count from the length of the payload. -/
def committed (bytes : List Byte) (w rate : Nat) : Container :=
  { channels := 1, sampleWidth := w, frameRate := rate, frameCount := bytes.length / w, payload := bytes }

/-- The body of `writeContainer` once the container is created (R125). -/
def writeOpen (io : IoEvents) (path : String) (samples : List Int) (w : Int) (rate : Nat) (wd : World) : Answer Unit × World :=
  let r := encodeCall samples w wd.block
  match r.1 with
  | .error e => (.error e, { wd with block := r.2 })
  | .value bytes =>
    if io.writeOk then
      (.value (),
        { wd with block := r.2, files := setFile path (some (.container (committed bytes w.toNat rate))) wd.files })
    else (.error .ioError, { wd with block := r.2 })

/-- `writeContainer(path, sampleSequence, sampleWidth, frameRate)` (R125, R126). An existing entry is replaced; after any failure the entry
is unconstrained. -/
def writeContainer (io : IoEvents) (path : String) (samples : List Int) (w : Int) (rate : Nat) (wd : World) : Answer Unit × World :=
  if io.openOk then
    let r := writeOpen io path samples w rate (openHandle path wd)
    let f := finish io r.1 r.2
    match f.1 with
    | .value () => f
    | .error e => (.error e, spoilFile path f.2)
  else (.error .ioError, spoilFile path wd)

end Sys2Proof.Machine
end

