-- ==== Sys2Proof/Safety.lean ====
section
/-! DEFINITION. Safety.lean: what a state of a run looks like (the invariant that R16, R17, R21 and R109 state), what a host that obeys the
hazard rules does (92_eei_decisions.md, premises 1 and 2), and the words the statements use. -/

namespace Sys2Proof.Machine

/-- Where a decode in flight stands (R109): admitted, `IDX` frames converted, the output buffer their conversion. -/
def DecodeInFlight (s : State) (w : Width) : Prop :=
  s.cmd = commandWord .decode w ∧ s.raw.length = s.frameCount * w.bytes ∧ s.idx ≤ s.frameCount ∧
    decodePrefix w s.raw s.idx = some s.smp

/-- Where an encode in flight stands (R109): `IDX` frames converted, the output buffer their conversion. -/
def EncodeInFlight (s : State) (w : Width) : Prop :=
  s.cmd = commandWord .encode w ∧ s.idx ≤ s.smp.length ∧ s.raw = encodeBuffer (s.smp.take s.idx) w

/-- The invariant of the machine. It rules out the states no run reaches. -/
structure Inv (s : State) : Prop where
  /-- R21: `ERR` is non-zero if and only if `STATUS` is `ERROR`. -/
  err_iff : s.err ≠ .none ↔ s.status = .error
  /-- R16: `IDLE` is 'no transaction has been issued since reset', so `CMD` and `IDX` are as reset left them. -/
  idle : s.status = .idle → s.cmd = 0x0#4 ∧ s.idx = 0
  /-- R109: while `BUSY` a supported command is in flight. -/
  busy : s.status = .busy → ∃ w, DecodeInFlight s w ∨ EncodeInFlight s w
  /-- R110: the command that ended in `DONE` is a supported one. -/
  done : s.status = .done → ∃ i, decode s.cmd = .ok i
  /-- R141: the command refused as malformed is a decode. -/
  malformed : s.err = .malformedInput → ∃ w, s.cmd = commandWord .decode w
  /-- R141: the command refused as unsupported spells no operation. -/
  unsupported : s.err = .unsupportedConfiguration → Width.ofField (widthField s.cmd) = none

/-- Turns of a host that obeys hazards H-1 and H-2 (R164, R165) while a transaction is in flight: it performs nothing but `RDSTATUS`
(92_eei_decisions.md, premise 1). -/
def PollsOnly (turns : List Turn) : Prop :=
  ∀ t, t ∈ turns → t = .block ∨ t = .host .rdStatus

/-- Two states agree on the seven items of the block's architectural state (R10). -/
def SameBlock (a b : State) : Prop :=
  a.cmd = b.cmd ∧ a.frameCount = b.frameCount ∧ a.status = b.status ∧ a.err = b.err ∧ a.idx = b.idx ∧ a.raw = b.raw ∧ a.smp = b.smp

/-- `k` steps of the machine, ending at the first fault or refusal: `Host.Core.run` of `Sys2Proof.core` over the model's own types. -/
def run : Nat → State → Result
  | 0, s => .next s
  | k + 1, s =>
    match step s with
    | .next t => run k t
    | .fault e => .fault e
    | .refused e => .refused e

/-- The oldest pending turn is the host operation `op`. -/
def nextIsHost (op : HostOp) (s : State) : Prop :=
  ∃ rest, s.turns = .host op :: rest

/-- The world with the block in a state that can start a call: not `BUSY` (R113: one call at a time). -/
def World.ready (wd : World) : Prop :=
  wd.block.status ≠ .busy

end Sys2Proof.Machine
end

