-- ==== Sys2Proof/Certificates/Slice0/Obligations.lean ====
section
/-! DEFINITION. Certificates/Slice0/Obligations.lean: the statements for the provers. Each docstring names the rule of spec/ it
formalises; a clause that rests on a choice of the model says so and names its log entry. -/

open Sys2Proof Sys2Proof.Machine

/-! ## Encoding and the step -/

/-- R59: the eight supported words select their operations, the eight others select none, and no word selects two. -/
def Obligations.CommandWordsSelectTheEightOperations : Prop :=
  decode 0x1#4 = .ok .dec1 ∧ decode 0x2#4 = .ok .dec2 ∧ decode 0x3#4 = .ok .dec3 ∧ decode 0x4#4 = .ok .dec4 ∧
  decode 0x9#4 = .ok .enc1 ∧ decode 0xA#4 = .ok .enc2 ∧ decode 0xB#4 = .ok .enc3 ∧ decode 0xC#4 = .ok .enc4 ∧
  (∀ c, c ∈ [0x0#4, 0x5#4, 0x6#4, 0x7#4, 0x8#4, 0xD#4, 0xE#4, 0xF#4] →
    decode c = .error (.unsupportedWidth (dirField c) (widthField c))) ∧
  (∀ c i, decode c = .ok i ↔ c = encode i)

/-- Decoding the word of an instruction gives the instruction, from the four bits, from any number and from a byte. -/
def Obligations.DecodeOfEncodeIsTheInstruction : Prop :=
  ∀ i : Instr, i.wf = true → decode (encode i) = .ok i ∧ decodeValue (encode i).toNat = .ok i ∧
    decodeByte ((encode i).setWidth 8) = .ok i ∧ decodeTableWord 8 (encode i).toNat = some i

/-- A step is the turn of whoever moves next. When that is the host with an `ISSUE` of a word that decodes to `i`, on a block that is not
`BUSY`, it is `exec i` of the state whose oldest turn is gone (turns are the model's own form of the host, log entry 1); `withFetchWord`
places such a turn (log entry 5). -/
def Obligations.StepRunsTheIssuedCommand : Prop :=
  (∀ (s : State) (op : HostOp) (rest : List Turn), s.turns = .host op :: rest →
    step s = hostTurn Config.bounds op { s with turns := rest }) ∧
  (∀ (s : State) (c : BitVec 4) (i : Instr) (rest : List Turn), s.turns = .host (.issue c) :: rest → s.status ≠ .busy →
    decode c = .ok i → step s = exec i { s with turns := rest }) ∧
  (∀ (s : State) (i : Instr), s.status ≠ .busy → step (s.withFetchWord 8 (encode i).toNat) = exec i s)

/-- A step in which the block moves while `BUSY` is `exec` of the command in `CMD` (R43), whether the turn is pending or nobody's turn
is pending (turns are the model's own, log entry 1), and the turn of the block is that `exec` and nothing more. -/
def Obligations.StepRunsTheCommandInFlight : Prop :=
  ∀ (s : State) (i : Instr), s.status = .busy → decode s.cmd = .ok i →
    blockTurn s = exec i s ∧ (s.turns = [] → step s = exec i s) ∧
    (∀ rest, s.turns = .block :: rest → step s = exec i { s with turns := rest })

/-! ## The eight operations -/

/-- R72, `DEC.1`: its word; admission, with `MalformedInput` exactly when `len(RAW) != FRAMECOUNT`; the frame step, which appends the
byte less 128 and raises nothing. Everything not named is unchanged. -/
def Obligations.Dec1UnpacksBiasedBytes : Prop :=
  encode .dec1 = 0x1#4 ∧
  (∀ s : State, s.status ≠ .busy → s.raw.length = s.frameCount →
    exec .dec1 s = .next { s with cmd := 0x1#4, smp := [], idx := 0, err := .none, status := .busy }) ∧
  (∀ s : State, s.status ≠ .busy → s.raw.length ≠ s.frameCount →
    exec .dec1 s = .next { s with cmd := 0x1#4, status := .error, err := .malformedInput }) ∧
  (∀ (s : State) (b0 : Byte), s.status = .busy → s.cmd = 0x1#4 → s.idx < s.frameCount → s.smp.length = s.idx →
    s.raw[s.idx]? = some b0 →
    ∃ v : Word, v.toInt = (b0.toNat : Int) - 128 ∧
      exec .dec1 s = .next { s with smp := s.smp ++ [v], idx := s.idx + 1 })

/-- R73, `DEC.2`: its word; admission; the frame step, which appends `sext_16` of the little-endian value of the group. -/
def Obligations.Dec2UnpacksSignedPairs : Prop :=
  encode .dec2 = 0x2#4 ∧
  (∀ s : State, s.status ≠ .busy → s.raw.length = 2 * s.frameCount →
    exec .dec2 s = .next { s with cmd := 0x2#4, smp := [], idx := 0, err := .none, status := .busy }) ∧
  (∀ s : State, s.status ≠ .busy → s.raw.length ≠ 2 * s.frameCount →
    exec .dec2 s = .next { s with cmd := 0x2#4, status := .error, err := .malformedInput }) ∧
  (∀ (s : State) (b0 b1 : Byte), s.status = .busy → s.cmd = 0x2#4 → s.idx < s.frameCount → s.smp.length = s.idx →
    s.raw[2 * s.idx]? = some b0 → s.raw[2 * s.idx + 1]? = some b1 →
    ∃ v : Word,
      (v.toInt = if b0.toNat + 256 * b1.toNat < 32768 then ((b0.toNat + 256 * b1.toNat : Nat) : Int)
        else ((b0.toNat + 256 * b1.toNat : Nat) : Int) - 65536) ∧
      exec .dec2 s = .next { s with smp := s.smp ++ [v], idx := s.idx + 1 })

/-- R74, `DEC.3`: its word; admission; the frame step, which appends the group with the fill byte above it read as a signed 32-bit
integer, the fill byte coming from bit 7 of the third byte. -/
def Obligations.Dec3UnpacksThroughTheFillByte : Prop :=
  encode .dec3 = 0x3#4 ∧
  (∀ s : State, s.status ≠ .busy → s.raw.length = 3 * s.frameCount →
    exec .dec3 s = .next { s with cmd := 0x3#4, smp := [], idx := 0, err := .none, status := .busy }) ∧
  (∀ s : State, s.status ≠ .busy → s.raw.length ≠ 3 * s.frameCount →
    exec .dec3 s = .next { s with cmd := 0x3#4, status := .error, err := .malformedInput }) ∧
  (∀ (s : State) (b0 b1 b2 : Byte), s.status = .busy → s.cmd = 0x3#4 → s.idx < s.frameCount → s.smp.length = s.idx →
    s.raw[3 * s.idx]? = some b0 → s.raw[3 * s.idx + 1]? = some b1 → s.raw[3 * s.idx + 2]? = some b2 →
    ∃ v : Word,
      v.toNat = b0.toNat + 256 * b1.toNat + 65536 * b2.toNat + 16777216 * (if 128 ≤ b2.toNat then 0xFF else 0x00) ∧
      (v.toInt = if b0.toNat + 256 * b1.toNat + 65536 * b2.toNat < 8388608
        then ((b0.toNat + 256 * b1.toNat + 65536 * b2.toNat : Nat) : Int)
        else ((b0.toNat + 256 * b1.toNat + 65536 * b2.toNat : Nat) : Int) - 16777216) ∧
      exec .dec3 s = .next { s with smp := s.smp ++ [v], idx := s.idx + 1 })

/-- R75, `DEC.4`: its word; admission; the frame step, which appends the four bytes read as a signed 32-bit integer. -/
def Obligations.Dec4UnpacksSignedQuads : Prop :=
  encode .dec4 = 0x4#4 ∧
  (∀ s : State, s.status ≠ .busy → s.raw.length = 4 * s.frameCount →
    exec .dec4 s = .next { s with cmd := 0x4#4, smp := [], idx := 0, err := .none, status := .busy }) ∧
  (∀ s : State, s.status ≠ .busy → s.raw.length ≠ 4 * s.frameCount →
    exec .dec4 s = .next { s with cmd := 0x4#4, status := .error, err := .malformedInput }) ∧
  (∀ (s : State) (b0 b1 b2 b3 : Byte), s.status = .busy → s.cmd = 0x4#4 → s.idx < s.frameCount → s.smp.length = s.idx →
    s.raw[4 * s.idx]? = some b0 → s.raw[4 * s.idx + 1]? = some b1 → s.raw[4 * s.idx + 2]? = some b2 →
    s.raw[4 * s.idx + 3]? = some b3 →
    ∃ v : Word,
      v.toNat = b0.toNat + 256 * b1.toNat + 65536 * b2.toNat + 16777216 * b3.toNat ∧
      exec .dec4 s = .next { s with smp := s.smp ++ [v], idx := s.idx + 1 })

/-- R87, `ENC.1`: its word; admission, which raises nothing; the frame step, which appends the byte `(s + 128) mod 256`. -/
def Obligations.Enc1PacksBiasedBytes : Prop :=
  encode .enc1 = 0x9#4 ∧
  (∀ s : State, s.status ≠ .busy →
    exec .enc1 s = .next { s with cmd := 0x9#4, raw := [], idx := 0, err := .none, status := .busy }) ∧
  (∀ (s : State) (v : Word), s.status = .busy → s.cmd = 0x9#4 → s.smp[s.idx]? = some v → s.raw.length = s.idx →
    ∃ b0 : Byte, (b0.toNat : Int) = (v.toInt + 128) % 256 ∧
      exec .enc1 s = .next { s with raw := s.raw ++ [b0], idx := s.idx + 1 })

/-- R88, `ENC.2`: its word; admission; the frame step, which appends the two bytes of `u = s mod 65536`, low byte first. -/
def Obligations.Enc2PacksTheLowPair : Prop :=
  encode .enc2 = 0xA#4 ∧
  (∀ s : State, s.status ≠ .busy →
    exec .enc2 s = .next { s with cmd := 0xA#4, raw := [], idx := 0, err := .none, status := .busy }) ∧
  (∀ (s : State) (v : Word), s.status = .busy → s.cmd = 0xA#4 → s.smp[s.idx]? = some v → s.raw.length = 2 * s.idx →
    ∃ b0 b1 : Byte, (b0.toNat : Int) = v.toInt % 65536 % 256 ∧ (b1.toNat : Int) = v.toInt % 65536 / 256 ∧
      exec .enc2 s = .next { s with raw := s.raw ++ [b0, b1], idx := s.idx + 1 })

/-- R89, `ENC.3`: its word; admission; the frame step, which appends the low three bytes of the 32-bit word and discards the top. -/
def Obligations.Enc3PacksTheLowThreeLanes : Prop :=
  encode .enc3 = 0xB#4 ∧
  (∀ s : State, s.status ≠ .busy →
    exec .enc3 s = .next { s with cmd := 0xB#4, raw := [], idx := 0, err := .none, status := .busy }) ∧
  (∀ (s : State) (v : Word), s.status = .busy → s.cmd = 0xB#4 → s.smp[s.idx]? = some v → s.raw.length = 3 * s.idx →
    ∃ b0 b1 b2 : Byte, (b0.toNat : Int) = v.toInt % 16777216 % 256 ∧ (b1.toNat : Int) = v.toInt % 16777216 / 256 % 256 ∧
      (b2.toNat : Int) = v.toInt % 16777216 / 65536 ∧
      exec .enc3 s = .next { s with raw := s.raw ++ [b0, b1, b2], idx := s.idx + 1 })

/-- R90, `ENC.4`: its word; admission; the frame step, which appends all four bytes of the 32-bit word, low byte first. -/
def Obligations.Enc4PacksAllFourLanes : Prop :=
  encode .enc4 = 0xC#4 ∧
  (∀ s : State, s.status ≠ .busy →
    exec .enc4 s = .next { s with cmd := 0xC#4, raw := [], idx := 0, err := .none, status := .busy }) ∧
  (∀ (s : State) (v : Word), s.status = .busy → s.cmd = 0xC#4 → s.smp[s.idx]? = some v → s.raw.length = 4 * s.idx →
    ∃ b0 b1 b2 b3 : Byte, b0.toNat = v.toNat % 256 ∧ b1.toNat = v.toNat / 256 % 256 ∧ b2.toNat = v.toNat / 65536 % 256 ∧
      b3.toNat = v.toNat / 16777216 ∧
      exec .enc4 s = .next { s with raw := s.raw ++ [b0, b1, b2, b3], idx := s.idx + 1 })

/-- R110, `COMPLETE`: with `IDX` at the frame count, `STATUS` becomes `DONE` and nothing else changes, for each of the eight; and from a
state of the invariant the postconditions R76 and R91 hold. -/
def Obligations.CompletionEndsTheTransaction : Prop :=
  ∀ (i : Instr) (s : State), s.status = .busy → s.cmd = encode i → s.idx = frames s →
    exec i s = .next { s with status := .done } ∧
    (Inv s → i.dir = .decode → decodeBuffer s.raw s.frameCount i.width = some s.smp) ∧
    (Inv s → i.dir = .encode → s.raw = encodeBuffer s.smp i.width)

/-- R71: the frame step of a decode at every width. Admission established the length, so the group exists; the sample is a function of
its `w` bytes alone, and it is appended at index `IDX`. -/
def Obligations.DecodeFrameConvertsItsGroup : Prop :=
  ∀ (w : Width) (s : State), s.status = .busy → s.cmd = commandWord .decode w → s.idx < s.frameCount →
    s.raw.length = s.frameCount * w.bytes → s.smp.length = s.idx →
    ∃ g v, g.length = w.bytes ∧ (∀ k, k < w.bytes → g[k]? = readRaw s (s.idx * w.bytes + k)) ∧ unpackGroup w g = some v ∧
      exec (Instr.ofDirWidth .decode w) s = .next { s with smp := s.smp ++ [v], idx := s.idx + 1 }

/-- R86: the frame step of an encode at every width: exactly `w` bytes, lane 0 first, appended at index `IDX * w`. -/
def Obligations.EncodeFrameConvertsItsSample : Prop :=
  ∀ (w : Width) (s : State), s.status = .busy → s.cmd = commandWord .encode w → s.idx < s.smp.length →
    s.raw.length = s.idx * w.bytes →
    ∃ v t, readSmp s s.idx = some v ∧ (packGroup w v).length = w.bytes ∧
      exec (Instr.ofDirWidth .encode w) s = .next t ∧ t = { s with raw := s.raw ++ packGroup w v, idx := s.idx + 1 } ∧
      (∀ k, k < w.bytes → readRaw t (s.idx * w.bytes + k) = (packGroup w v)[k]?)

/-- The frame of `DEC.1` to `DEC.4`: `FRAMECOUNT`, every byte of `RAW`, the turns, the replies and the free-value counter are unchanged;
while in flight `CMD` and `ERR` too, and every cell of `SMP` but the one at index `IDX`; an error changes no cell of `SMP` and not
`IDX`. -/
def Obligations.DecodeFamilyFrame : Prop :=
  ∀ (i : Instr) (s t : State), i.dir = .decode → exec i s = .next t →
    t.frameCount = s.frameCount ∧ t.turns = s.turns ∧ t.replies = s.replies ∧ t.freeReads = s.freeReads ∧
    (∀ a, readRaw t a = readRaw s a) ∧
    (s.status = .busy → t.cmd = s.cmd ∧ t.err = s.err ∧ ∀ a, a ≠ s.idx → readSmp t a = readSmp s a) ∧
    (s.status ≠ .busy → t.cmd = encode i) ∧
    (s.status ≠ .busy → t.status = .error → t.idx = s.idx ∧ ∀ a, readSmp t a = readSmp s a)

/-- The frame of `ENC.1` to `ENC.4`: `FRAMECOUNT` (D19), every cell of `SMP`, the turns, the replies and the free-value counter are
unchanged; while in flight `CMD` and `ERR` too, and every byte of `RAW` outside the `w` bytes from index `IDX * w` on. -/
def Obligations.EncodeFamilyFrame : Prop :=
  ∀ (i : Instr) (s t : State), i.dir = .encode → exec i s = .next t →
    t.frameCount = s.frameCount ∧ t.turns = s.turns ∧ t.replies = s.replies ∧ t.freeReads = s.freeReads ∧
    (∀ a, readSmp t a = readSmp s a) ∧
    (s.status = .busy → t.cmd = s.cmd ∧ t.err = s.err ∧
      ∀ a, (a < s.idx * i.width.bytes ∨ s.idx * i.width.bytes + i.width.bytes ≤ a) → readRaw t a = readRaw s a) ∧
    (s.status ≠ .busy → t.cmd = encode i ∧ t.status ≠ .error)

/-! ## Admission and errors -/

/-- R104, R108: an `ISSUE` on a block that is not `BUSY` writes `CMD` and is admitted or refused, the width checked first and the length,
of a decode only, second; while `BUSY` it is dropped. -/
def Obligations.IssueIsAdmittedByTheTwoChecks : Prop :=
  ∀ (s : State) (c : BitVec 4),
    (s.status = .busy → hostTurn Config.bounds (.issue c) s = .next s) ∧
    (s.status ≠ .busy → hostTurn Config.bounds (.issue c) s = .next
      (if ¬ ((c.extractLsb' 0 3).toNat = 1 ∨ (c.extractLsb' 0 3).toNat = 2 ∨ (c.extractLsb' 0 3).toNat = 3 ∨
          (c.extractLsb' 0 3).toNat = 4) then
        { s with cmd := c, status := .error, err := .unsupportedConfiguration }
      else if c.getLsbD 3 = false ∧ s.raw.length ≠ s.frameCount * (c.extractLsb' 0 3).toNat then
        { s with cmd := c, status := .error, err := .malformedInput }
      else if c.getLsbD 3 = false then
        { s with cmd := c, smp := [], idx := 0, err := .none, status := .busy }
      else
        { s with cmd := c, raw := [], idx := 0, err := .none, status := .busy }))

/-- R60: an `ISSUE` of one of the eight unsupported words is accepted into `CMD`, changes no buffer and ends at once in the error, in both
directions alike; a width that fits no command word makes the host function fail with the same class without issuing anything. -/
def Obligations.UnsupportedWidthsAreRefused : Prop :=
  (∀ (s : State) (c : BitVec 4), c ∈ [0x0#4, 0x5#4, 0x6#4, 0x7#4, 0x8#4, 0xD#4, 0xE#4, 0xF#4] → s.status ≠ .busy →
    hostTurn Config.bounds (.issue c) s = .next { s with cmd := c, status := .error, err := .unsupportedConfiguration }) ∧
  (∀ (s : State) (raw : List Byte) (n : Nat) (w : Int), (w < 0 ∨ 7 < w) →
    decodeCall raw n w s = (.error .unsupportedConfiguration, s)) ∧
  (∀ (s : State) (samples : List Int) (w : Int), (w < 0 ∨ 7 < w) →
    encodeCall samples w s = (.error .unsupportedConfiguration, s))

/-- R147: an `ISSUE` that ends in `ERROR` writes `CMD`, `STATUS` = 3 and `ERR` = 1 or 2, and nothing else. -/
def Obligations.ErrorEntryWritesOnlyTheReport : Prop :=
  ∀ (s t : State) (c : BitVec 4), s.status ≠ .busy → hostTurn Config.bounds (.issue c) s = .next t → t.status = .error →
    t = { s with cmd := c, status := .error, err := t.err } ∧
    t.status.code = 3#2 ∧ (t.err = .malformedInput ∧ t.err.code = 1#2 ∨ t.err = .unsupportedConfiguration ∧ t.err.code = 2#2)

/-- R148: an `ERROR` outcome stands, with its code, until the host's next `ISSUE` or `RESET`: no other host operation and no turn of the
block changes it, loads and `SETFC` included, which are all accepted; the next `ISSUE` needs no clearing first, and sets `BUSY` and `NONE`
on success and the new code on failure. -/
def Obligations.ErrorStandsUntilIssueOrReset : Prop :=
  (∀ (s : State) (op : HostOp), s.status = .error → (∀ c, op ≠ .issue c) → op ≠ .reset →
    ∃ t, hostTurn Config.bounds op s = .next t ∧ t.status = .error ∧ t.err = s.err) ∧
  (∀ s : State, s.status = .error → blockTurn s = .next s) ∧
  (∀ (s : State) (i : Instr), s.status = .error → (i.dir = .decode → s.raw.length = s.frameCount * i.width.bytes) →
    ∃ t, hostTurn Config.bounds (.issue (encode i)) s = .next t ∧ t.status = .busy ∧ t.err = .none) ∧
  (∀ (s : State) (c : BitVec 4), s.status = .error → ∃ t, hostTurn Config.bounds (.issue c) s = .next t ∧
    (t.status = .error → t.cmd = c ∧ (t.err = .unsupportedConfiguration ↔ Width.ofField (widthField c) = none) ∧
      (t.err = .malformedInput ↔ Width.ofField (widthField c) ≠ none)))

/-- R153: no error is hidden. From a state of the invariant, `DONE` is entered only by the block completing a transaction that converted
every frame, and whatever leaves an `ISSUE` in `ERROR` has a non-zero `ERR`. -/
def Obligations.DoneMeansEveryFrameWasConverted : Prop :=
  ∀ s t : State, Inv s → step s = .next t →
    (s.status ≠ .done → t.status = .done →
      s.status = .busy ∧ t.idx = frames t ∧ t.err = .none ∧
      ∃ i, t.cmd = encode i ∧
        (i.dir = .decode → decodeBuffer t.raw t.frameCount i.width = some t.smp) ∧
        (i.dir = .encode → t.raw = encodeBuffer t.smp i.width)) ∧
    (t.status = .error → t.err ≠ .none)

/-! ## Invariants and runs -/

/-- The invariant holds after reset. -/
def Obligations.ResetMeetsTheInvariant : Prop :=
  Inv State.reset

/-- The invariant (R16, R21, R109, R110, R141) is kept by every step, whoever moves. -/
def Obligations.EveryStepKeepsTheInvariant : Prop :=
  ∀ s t : State, Inv s → step s = .next t → Inv t

/-- From a state of the invariant every step answers a next state: nothing faults and nothing is refused (R149; the bounds are the
default, unbounded). While `BUSY` a turn of the block raises no error. -/
def Obligations.NoStepFailsUnderTheInvariant : Prop :=
  ∀ s : State, Inv s →
    (∃ t, step s = .next t) ∧
    (s.status = .busy → ∃ t, blockTurn s = .next t ∧ (t.status = .busy ∨ t.status = .done) ∧ t.err = .none)

/-- R115 (each step a turn of the block, log entry 1): a transaction just admitted with `N` frames is `BUSY` for `N` frame steps, each counting one frame, and `DONE` after one more. -/
def Obligations.TransactionTakesExactlyNPlusOneSteps : Prop :=
  ∀ s : State, Inv s → s.status = .busy → s.idx = 0 → s.turns = [] →
    (∀ k, k ≤ frames s → ∃ u, run k s = .next u ∧ u.status = .busy ∧ u.idx = k ∧ frames u = frames s) ∧
    (∃ t, run (frames s + 1) s = .next t ∧ t.status = .done ∧ t.idx = frames s)

/-- R111: for every command word, the `ISSUE` and the block steps after it reach exactly the state of the atomic transaction: in one step
when it is refused, in `N + 2` (the `ISSUE`, `N` frame steps, `COMPLETE`) when it is admitted; turns are the model's own (log entry 1). -/
def Obligations.SteppedTransactionIsTheAtomicOne : Prop :=
  ∀ (s : State) (c : BitVec 4), s.status ≠ .busy → s.turns = [] →
    run (if (issueAtomic c s).status = .error then 1 else frames (issueAtomic c s) + 2)
      { s with turns := [.host (.issue c)] } = .next (issueAtomic c s)

/-- R18, R111 for a host that obeys the hazard rules: whatever polls and block turns follow the `ISSUE`, the run never stops, every reply is
(`BUSY`, `NONE`) or the outcome of the atomic transaction, and a block that is not `BUSY` any more is in the atomic state. Turns and replies
are the model's own (log entries 1 and 2). -/
def Obligations.PollingHostSeesTheAtomicTransaction : Prop :=
  ∀ (s : State) (c : BitVec 4) (turns : List Turn), s.status ≠ .busy → PollsOnly turns →
    ∃ t, run (turns.length + 1) { s with turns := .host (.issue c) :: turns } = .next t ∧
      (t.status ≠ .busy → SameBlock t (issueAtomic c s)) ∧
      (∃ seen, t.replies = seen ++ s.replies ∧
        ∀ r, r ∈ seen → r = .status .busy .none ∨ r = .status (issueAtomic c s).status (issueAtomic c s).err)

/-- R76: what a decode transaction computes. The function gives `n` samples, sample `i` from group `i` alone, the empty sequence for zero
frames, and nothing on a length mismatch; the transaction ends in `DONE` with `SMP` that sequence and `RAW` unchanged, the block
moving when no turn is pending (log entry 1). -/
def Obligations.DecodeTransactionComputesDecode : Prop :=
  (∀ (w : Width) (raw : List Byte) (n : Nat), raw.length ≠ n * w.bytes → decodeBuffer raw n w = none) ∧
  (∀ w : Width, decodeBuffer [] 0 w = some []) ∧
  (∀ (w : Width) (raw : List Byte) (n : Nat), raw.length = n * w.bytes →
    ∃ out, decodeBuffer raw n w = some out ∧ out.length = n ∧
      ∀ i, i < n → ∃ v, unpackGroup w ((raw.drop (i * w.bytes)).take w.bytes) = some v ∧ out[i]? = some v) ∧
  (∀ (w : Width) (s : State), s.status ≠ .busy → s.turns = [] → s.raw.length = s.frameCount * w.bytes →
    ∃ t, run (s.frameCount + 2) { s with turns := [.host (.issue (commandWord .decode w))] } = .next t ∧
      t.status = .done ∧ decodeBuffer s.raw s.frameCount w = some t.smp ∧ t.smp.length = s.frameCount ∧ t.raw = s.raw ∧
      t.frameCount = s.frameCount)

/-- R91: what an encode transaction computes: the concatenation of the groups; the transaction ends in `DONE` with `RAW` that sequence
and `SMP` unchanged; at an unsupported width it raises `UnsupportedConfiguration`. The block moves when no turn is pending (log
entry 1). -/
def Obligations.EncodeTransactionComputesEncode : Prop :=
  (∀ w : Width, encodeBuffer [] w = []) ∧
  (∀ (w : Width) (v : Word) (smp : List Word), encodeBuffer (v :: smp) w = packGroup w v ++ encodeBuffer smp w) ∧
  (∀ (w : Width) (s : State), s.status ≠ .busy → s.turns = [] →
    ∃ t, run (s.smp.length + 2) { s with turns := [.host (.issue (commandWord .encode w))] } = .next t ∧
      t.status = .done ∧ t.raw = encodeBuffer s.smp w ∧ t.smp = s.smp) ∧
  (∀ (s : State) (c : BitVec 4) (rest : List Turn), s.status ≠ .busy → c ∈ [0x8#4, 0xD#4, 0xE#4, 0xF#4] →
    s.turns = .host (.issue c) :: rest →
    ∃ t, step s = .next t ∧ t.status = .error ∧ t.err = .unsupportedConfiguration ∧ t.raw = s.raw)

/-- R24: the final `STATUS`, `ERR` and, when `DONE`, the output buffer of a transaction depend only on its explicit inputs: for a decode
`CMD`, `FRAMECOUNT` and `RAW`, for an encode `CMD` and `SMP`; `WAIT` polls once per block step (log entry 7). -/
def Obligations.TransactionsAreIndependent : Prop :=
  ∀ (a b : State) (c : BitVec 4), a.status ≠ .busy → b.status ≠ .busy →
    (dirField c = .decode → a.raw = b.raw ∧ a.frameCount = b.frameCount) → (dirField c = .encode → a.smp = b.smp) →
    ∃ s t, perform [.op (.issue c), .wait] a = .next s ∧ perform [.op (.issue c), .wait] b = .next t ∧
      s.status ≠ .busy ∧ s.status = t.status ∧ s.err = t.err ∧
      (s.status = .done → dirField c = .decode → s.smp = t.smp) ∧
      (s.status = .done → dirField c = .encode → s.raw = t.raw)

/-! ## The laws of the conversions -/

/-- R57: the 32-bit cells the decode builds, bit for bit, and their values: the group's unsigned value less 128 at width 1, and read as a
signed number of `8w` bits at widths 2, 3 and 4. -/
def Obligations.DecodedCellsAreTheStatedPatterns : Prop :=
  (∀ b0 : Byte, unpackGroup .one [b0] = some ((b0 ^^^ 0x80#8).signExtend 32)) ∧
  (∀ b0 b1 : Byte, unpackGroup .two [b0, b1] =
    some ((if b1.msb then 0xFFFF#16 else 0x0000#16) ++ (b1 ++ b0))) ∧
  (∀ b0 b1 b2 : Byte, unpackGroup .three [b0, b1, b2] =
    some ((if b2.msb then 0xFF#8 else 0x00#8) ++ (b2 ++ (b1 ++ b0)))) ∧
  (∀ b0 b1 b2 b3 : Byte, unpackGroup .four [b0, b1, b2, b3] = some (b3 ++ (b2 ++ (b1 ++ b0)))) ∧
  (∀ b0 : Byte, (unpackGroup .one [b0]).map BitVec.toInt = some ((b0.toNat : Int) - 128)) ∧
  (∀ (w : Width) (g : List Byte), w ≠ .one → g.length = w.bytes → ∃ v, unpackGroup w g = some v ∧
    v.toInt = if leValue g < 2 ^ (8 * w.bytes - 1) then (leValue g : Int) else (leValue g : Int) - 2 ^ (8 * w.bytes))

/-- R58: the lanes the encode emits: bits `8k+7` down to `8k` of the cell at widths 2 to 4, and `S[7:0] XOR 0x80` at width 1. -/
def Obligations.EncodedLanesAreTheStatedBits : Prop :=
  (∀ v : Word, packGroup .one v = [v.extractLsb' 0 8 ^^^ 0x80#8]) ∧
  (∀ (w : Width) (v : Word), w ≠ .one → (packGroup w v).length = w.bytes ∧
    ∀ k, k < w.bytes → ∃ b, (packGroup w v)[k]? = some b ∧ b.toNat = v.toNat % 2 ^ (8 * w.bytes) / 2 ^ (8 * k) % 256)

/-- R77: every group converts into the range of its width, and the conversion is a bijection between groups and range. -/
def Obligations.UnpackIsABijectionOntoTheRange : Prop :=
  (∀ (w : Width) (g : List Byte), g.length = w.bytes → ∃ v, unpackGroup w g = some v ∧ inRange w v.toInt ∧ packGroup w v = g) ∧
  (∀ (w : Width) (x : Int), inRange w x → ∃ g : List Byte, g.length = w.bytes ∧ (unpackGroup w g).map BitVec.toInt = some x ∧
    ∀ h : List Byte, (unpackGroup w h).map BitVec.toInt = some x → h = g)

/-- R92: the length invariant, and that the output of an encode is admitted by a decode at the same width. -/
def Obligations.EncodedLengthIsFramesTimesWidth : Prop :=
  ∀ (smp : List Word) (w : Width), (encodeBuffer smp w).length = smp.length * w.bytes ∧
    (decodeBuffer (encodeBuffer smp w) smp.length w).isSome = true

/-- R93: decode after encode wraps each sample to the width, exactly when it is out of range. -/
def Obligations.DecodeAfterEncodeWraps : Prop :=
  (∀ (w : Width) (v : Word), (unpackGroup w (packGroup w v)).map BitVec.toInt = some (wrapInt w v.toInt)) ∧
  (∀ (w : Width) (x : Int), inRange w x → wrapInt w x = x) ∧
  (∀ (w : Width) (smp : List Word), ∃ out, decodeBuffer (encodeBuffer smp w) smp.length w = some out ∧
    out.map BitVec.toInt = smp.map (fun v => wrapInt w v.toInt))

/-- R94: encode after decode gives the bytes back, for every group and for every buffer that is admitted. -/
def Obligations.EncodeAfterDecodeIsExact : Prop :=
  (∀ (w : Width) (g : List Byte), g.length = w.bytes → (unpackGroup w g).map (packGroup w) = some g) ∧
  (∀ (w : Width) (raw : List Byte) (n : Nat) (smp : List Word), decodeBuffer raw n w = some smp → encodeBuffer smp w = raw)

/-! ## The host operations -/

/-- R164: the four writing operations are dropped while `BUSY`: nothing changes but that the turn is spent (turns are the model's own,
log entry 1). -/
def Obligations.HostWritesWhileBusyAreDropped : Prop :=
  ∀ (s : State) (op : HostOp) (rest : List Turn), s.status = .busy → s.turns = .host op :: rest →
    ((∃ bytes, op = .loadRaw bytes) ∨ (∃ samples, op = .loadSmp samples) ∨ (∃ n, op = .setFc n) ∨ (∃ c, op = .issue c)) →
    step s = .next { s with turns := rest }

/-- R101, R102, R103: on a block that is not `BUSY`, `LOADRAW`, `LOADSMP` and `SETFC` write their one item and nothing else; while `BUSY`
they are dropped. -/
def Obligations.LoadsWriteTheirOneItem : Prop :=
  ∀ (s : State) (bytes : List Byte) (samples : List Word) (n : Nat),
    (s.status ≠ .busy →
      hostTurn Config.bounds (.loadRaw bytes) s = .next { s with raw := bytes } ∧
      hostTurn Config.bounds (.loadSmp samples) s = .next { s with smp := samples } ∧
      hostTurn Config.bounds (.setFc n) s = .next { s with frameCount := n }) ∧
    (s.status = .busy →
      hostTurn Config.bounds (.loadRaw bytes) s = .next s ∧ hostTurn Config.bounds (.loadSmp samples) s = .next s ∧
      hostTurn Config.bounds (.setFc n) s = .next s)

/-- R105: `RDSTATUS` returns (`STATUS`, `ERR`) in every state and changes nothing; in flight it returns (`BUSY`, `NONE`); and `WAIT` ends, with
the block not `BUSY`. The list of replies is the model's own (log entry 2). -/
def Obligations.StatusIsReadableInEveryState : Prop :=
  (∀ s : State, hostTurn Config.bounds .rdStatus s = .next { s with replies := .status s.status s.err :: s.replies }) ∧
  (∀ s : State, Inv s → s.status = .busy →
    hostTurn Config.bounds .rdStatus s = .next { s with replies := .status .busy .none :: s.replies }) ∧
  (∀ s : State, Inv s → ∃ t, performLine .wait s = .next t ∧ t.status ≠ .busy ∧ t.replies.head? = some (.status t.status t.err))

/-- R106: on a block that is not `BUSY` the reads return the buffers and the registers; while `BUSY`, `RDREG` of `STATUS` or `ERR` is defined
and every other read returns some value, an opaque one (log entries 3 and 4), and changes nothing else of the block. -/
def Obligations.ReadsReturnBuffersAndRegisters : Prop :=
  (∀ s : State, s.status ≠ .busy →
    hostTurn Config.bounds .rdRaw s = .next { s with replies := .raw s.raw :: s.replies } ∧
    hostTurn Config.bounds .rdSmp s = .next { s with replies := .smp s.smp :: s.replies } ∧
    hostTurn Config.bounds (.rdReg .cmd) s = .next { s with replies := .reg .cmd s.cmd.toNat :: s.replies } ∧
    hostTurn Config.bounds (.rdReg .frameCount) s = .next { s with replies := .reg .frameCount s.frameCount :: s.replies } ∧
    hostTurn Config.bounds (.rdReg .idx) s = .next { s with replies := .reg .idx s.idx :: s.replies } ∧
    hostTurn Config.bounds (.rdReg .rawLen) s = .next { s with replies := .reg .rawLen s.raw.length :: s.replies } ∧
    hostTurn Config.bounds (.rdReg .smpLen) s = .next { s with replies := .reg .smpLen s.smp.length :: s.replies }) ∧
  (∀ s : State,
    hostTurn Config.bounds (.rdReg .status) s = .next { s with replies := .reg .status s.status.code.toNat :: s.replies } ∧
    hostTurn Config.bounds (.rdReg .err) s = .next { s with replies := .reg .err s.err.code.toNat :: s.replies }) ∧
  (∀ s : State, s.status = .busy →
    (∃ bytes, hostTurn Config.bounds .rdRaw s =
      .next { s with replies := .raw bytes :: s.replies, freeReads := s.freeReads + 1 }) ∧
    (∃ samples, hostTurn Config.bounds .rdSmp s =
      .next { s with replies := .smp samples :: s.replies, freeReads := s.freeReads + 1 }) ∧
    (∀ r, r ≠ .status → r ≠ .err → ∃ v, (r = .cmd → v < 16) ∧
      hostTurn Config.bounds (.rdReg r) s =
        .next { s with replies := .reg r v :: s.replies, freeReads := s.freeReads + 1 }))

/-- R20: the value of every item after reset. -/
def Obligations.ResetValuesAreTheTable : Prop :=
  State.reset.cmd = 0x0#4 ∧ dirField State.reset.cmd = .decode ∧ widthField State.reset.cmd = 0#3 ∧ State.reset.frameCount = 0 ∧
  State.reset.status = .idle ∧ State.reset.status.code = 0#2 ∧ State.reset.err = .none ∧ State.reset.err.code = 0#2 ∧
  State.reset.idx = 0 ∧ State.reset.raw = [] ∧ State.reset.smp = []

/-- R107, R161: `RESET` puts the block in its reset state from any state, `BUSY` included, and the abandoned transaction is not resumed: with
no turn pending, the next step leaves the reset state as it is. The turns and the host's replies are the model's own (log entries 1
to 3). -/
def Obligations.ResetEndsAnyTransaction : Prop :=
  (∀ (s : State) (rest : List Turn), s.turns = .host .reset :: rest →
    ∃ t, step s = .next t ∧ SameBlock t State.reset ∧ t.turns = rest ∧ t.replies = s.replies ∧ t.freeReads = s.freeReads ∧
      (rest = [] → step t = .next t))

/-- R160: a block that is not `BUSY` does nothing until the host acts; after reset in particular. -/
def Obligations.ReadyBlockWaitsForTheHost : Prop :=
  (∀ s : State, s.status ≠ .busy → s.turns = [] → step s = .next s) ∧
  (∀ (s : State) (rest : List Turn), s.status ≠ .busy → s.turns = .block :: rest → step s = .next { s with turns := rest }) ∧
  (∀ k : Nat, run k State.reset = .next State.reset)

/-- R168: `FRAMECOUNT` is sticky: it is changed only by `SETFC` and reset. -/
def Obligations.FrameCountIsSticky : Prop :=
  ∀ s t : State, step s = .next t → (∀ n, ¬ nextIsHost (.setFc n) s) → ¬ nextIsHost .reset s → t.frameCount = s.frameCount

/-- R12: `CMD` is written only by an accepted `ISSUE`, which stores all four bits as given, and by reset; the block never writes it. -/
def Obligations.CommandIsWrittenOnlyByIssue : Prop :=
  (∀ s t : State, Inv s → step s = .next t → (∀ c, ¬ nextIsHost (.issue c) s) → ¬ nextIsHost .reset s → t.cmd = s.cmd) ∧
  (∀ (s : State) (c : BitVec 4) (rest : List Turn), s.status ≠ .busy → s.turns = .host (.issue c) :: rest →
    ∃ t, step s = .next t ∧ t.cmd = c)

/-- R17: `IDX` is incremented by exactly 1 by a frame step, set to 0 by a successful admission and by reset, and changed by nothing else, a
failed admission included; it never passes the frame count of the transaction. -/
def Obligations.IndexCountsConvertedFrames : Prop :=
  (∀ s t : State, Inv s → step s = .next t →
    t.idx = s.idx ∨
    (s.status = .busy ∧ t.status = .busy ∧ s.idx < frames s ∧ t.idx = s.idx + 1) ∨
    (nextIsHost .reset s ∧ t.idx = 0) ∨
    ((∃ c, nextIsHost (.issue c) s) ∧ s.status ≠ .busy ∧ t.status = .busy ∧ t.idx = 0)) ∧
  (∀ s t : State, step s = .next t → nextIsHost .reset s → t.idx = 0) ∧
  (∀ (s t : State) (c : BitVec 4), step s = .next t → s.status ≠ .busy → nextIsHost (.issue c) s →
    (t.status = .busy → t.idx = 0) ∧ (t.status = .error → t.idx = s.idx)) ∧
  (∀ s : State, Inv s → s.status = .busy → s.idx ≤ frames s)

/-- The buffers have one writer at a time (R31, R40): while `BUSY` a decode never writes `RAW`, an encode never writes `SMP`, and the cells
the transaction has already produced stand; whoever moves, `RESET` apart. -/
def Obligations.InputBufferIsUntouchedInFlight : Prop :=
  ∀ s t : State, s.status = .busy → step s = .next t → ¬ nextIsHost .reset s →
    (dirField s.cmd = .decode → t.raw = s.raw ∧ ∃ more, t.smp = s.smp ++ more) ∧
    (dirField s.cmd = .encode → t.smp = s.smp ∧ ∃ more, t.raw = s.raw ++ more)

/-- D32, R162: after reset, with nothing loaded, each of the eight operations is admitted and completes with zero frames: `DONE`, no error,
both buffers empty. -/
def Obligations.ZeroFramesAreLegal : Prop :=
  ∀ i : Instr, ∃ t, run 2 { State.reset with turns := [.host (.issue (encode i))] } = .next t ∧
    t = { State.reset with cmd := encode i, status := .done }

/-- U11, R5: a block with bounds refuses an operand it cannot hold, and one that fits is never refused: a count of `2^FC_BITS` or more, a
length of `RAW` above `RAW_CAP`, a length of `SMP` above `SMP_CAP`.
Five points in it are the MODEL'S CHOICE and no words of R5 or U11, all of log entry 8: a length of `SMP` of `2^FC_BITS` or more is refused
as well (DEDUCED); `LOADRAW` is held to `RAW_CAP` only, `FC_BITS` not bounding it (DEDUCED); bounds with a `RAW_CAP` are well formed only
with an `SMP_CAP` that R5's inequality can be asked of, so that a bound on `RAW` alone is ill formed (DEDUCED); under ill-formed bounds every
host operation is refused (DEDUCED); and the refusal comes before the drop while `BUSY`, so that it holds in every state (DESIGN CHOICE). -/
def Obligations.BoundedBlocksRefuseOversizedOperands : Prop :=
  (∀ b : Bounds, b.wf = true ↔ b.rawCap = none ∨ ∃ r c, b.rawCap = some r ∧ b.smpCap = some c ∧ 4 * c ≤ r) ∧
  (∀ (b : Bounds) (op : HostOp) (s : State), b.wf = false → hostTurn b op s = .refused .boundsIllFormed) ∧
  (∀ (b : Bounds) (n : Nat) (s : State), b.wf = true →
    (hostTurn b (.setFc n) s = .refused .overBound ↔ ∃ k, b.fcBits = some k ∧ 2 ^ k ≤ n)) ∧
  (∀ (b : Bounds) (bytes : List Byte) (s : State), b.wf = true →
    (hostTurn b (.loadRaw bytes) s = .refused .overBound ↔ ∃ cap, b.rawCap = some cap ∧ cap < bytes.length)) ∧
  (∀ (b : Bounds) (samples : List Word) (s : State), b.wf = true →
    (hostTurn b (.loadSmp samples) s = .refused .overBound ↔
      (∃ cap, b.smpCap = some cap ∧ cap < samples.length) ∨ (∃ k, b.fcBits = some k ∧ 2 ^ k ≤ samples.length)))

/-! ## The host programs and the container functions -/

/-- R113: `decode(rawBytes, frameCount, w)` on a block that is not `BUSY` returns what the function R76 gives, or fails with the document's
error: unsupported for a width that is no supported one, malformed on a length mismatch. What the block held before plays no part. -/
def Obligations.DecodeCallIsTheDocumentsDecode : Prop :=
  (∀ (raw : List Byte) (n : Nat) (w : Width) (s : State), s.status ≠ .busy →
    match decodeBuffer raw n w with
    | some out => (decodeCall raw n w.bytes s).1 = .value out
    | none => (decodeCall raw n w.bytes s).1 = .error .malformedInput) ∧
  (∀ (raw : List Byte) (n : Nat) (w : Int) (s : State), s.status ≠ .busy → ¬ (1 ≤ w ∧ w ≤ 4) →
    (decodeCall raw n w s).1 = .error .unsupportedConfiguration) ∧
  (∀ (raw : List Byte) (w : Width) (s : State), s.status ≠ .busy →
    (decodeCall2 raw w.bytes s).1 =
      match decodeBuffer raw (raw.length / w.bytes) w with
      | some out => .value out
      | none => .error .malformedInput)

/-- R114: `encode(samples, w)` on a block that is not `BUSY` returns what the function R91 gives for samples of 32 bits; it fails with the
unsupported-configuration error for any other width, and refuses a sample that fits no cell. -/
def Obligations.EncodeCallIsTheDocumentsEncode : Prop :=
  (∀ (samples : List Int) (w : Width) (s : State), s.status ≠ .busy →
    (∀ x, x ∈ samples → -2147483648 ≤ x ∧ x ≤ 2147483647) →
    (encodeCall samples w.bytes s).1 = .value (encodeBuffer (samples.map (BitVec.ofInt 32)) w)) ∧
  (∀ (samples : List Int) (w : Int) (s : State), s.status ≠ .busy → ¬ (1 ≤ w ∧ w ≤ 4) →
    (∀ x, x ∈ samples → -2147483648 ≤ x ∧ x ≤ 2147483647) →
    (encodeCall samples w s).1 = .error .unsupportedConfiguration) ∧
  (∀ (samples : List Int) (w : Int) (s : State), 0 ≤ w → w ≤ 7 → (∃ x, x ∈ samples ∧ (x < -2147483648 ∨ 2147483647 < x)) →
    encodeCall samples w s = (.error .sampleRefused, s))

/-- R64: `DECA.w` writes `FRAMECOUNT` = `len(RAW) div w` (0 for `w` = 0) and issues `DEC.w`; at a supported width it is admitted exactly when
the length is a multiple of the width and is malformed otherwise, and at an unsupported one it is unsupported whatever the length. -/
def Obligations.DecaSuppliesTheFrameCount : Prop :=
  (∀ (s : State) (w : Width), s.status ≠ .busy → ∃ t, performLine (.deca w.field) s = .next t ∧
    t.frameCount = s.raw.length / w.bytes ∧ t.cmd = commandWord .decode w ∧
    (s.raw.length % w.bytes = 0 → t.status = .busy ∧ t.frameCount * w.bytes = t.raw.length) ∧
    (s.raw.length % w.bytes ≠ 0 → t.status = .error ∧ t.err = .malformedInput)) ∧
  (∀ (s : State) (w : BitVec 3), s.status ≠ .busy → Width.ofField w = none → ∃ t, performLine (.deca w) s = .next t ∧
    (w = 0#3 → t.frameCount = 0) ∧ t.status = .error ∧ t.err = .unsupportedConfiguration)

/-- R129: a container written and read back whole gives the samples wrapped to the width, exactly the samples when they are in its range, and
the same width and rate, provided every file operation succeeds. -/
def Obligations.ContainerRoundTripWraps : Prop :=
  ∀ (path : String) (samples : List Int) (w : Width) (rate : Nat) (wd : World), wd.ready →
    (∀ x, x ∈ samples → -2147483648 ≤ x ∧ x ≤ 2147483647) →
    ∃ wd' out, writeContainer .fine path samples w.bytes rate wd = (.value (), wd') ∧
      (readContainer .fine path 0 0 wd').1 = .value (out, w.bytes, rate) ∧
      out.map BitVec.toInt = samples.map (wrapInt w) ∧
      ((∀ x, x ∈ samples → inRange w x) → out.map BitVec.toInt = samples)

/-- R122, R123: reading a range inside the container returns exactly the frames asked for, each the frame of that number of the full decode:
`endFrame - startFrame + 1` of them, or all from `startFrame` on when `endFrame` is 0; with the container's width and rate. -/
def Obligations.ReadContainerReturnsTheFramesAskedFor : Prop :=
  ∀ (path : String) (c : Container) (w : Width) (wd : World) (a b : Nat) (all : List Word), wd.ready →
    lookupFile path wd.files = some (.container c) → c.wf = true → c.channels = 1 → c.sampleWidth = w.bytes →
    decodeBuffer c.payload c.frameCount w = some all →
    (b = 0 → a < c.frameCount →
      (readContainer .fine path a b wd).1 = .value (all.drop a, w.bytes, c.frameRate)) ∧
    (b ≠ 0 → a ≤ b → b < c.frameCount →
      (readContainer .fine path a b wd).1 = .value ((all.drop a).take (b - a + 1), w.bytes, c.frameRate))

/-- R124: a missing or corrupt file, or one that does not open, is an I/O error; a channel count other than 1 is an unsupported
configuration, and nothing reaches the block; a range outside the container, negative frame numbers included, fails with no result, and
for a mono container of a supported width as an I/O error or as malformed input, which of the two being free (U5; log entry 9). That the
call keeps its own error when the close fails as well is the model's choice (log entry 12). -/
def Obligations.ReadContainerFailsWithNoResult : Prop :=
  ∀ (io : IoEvents) (path : String) (a b : Int) (wd : World),
    ((lookupFile path wd.files = none ∨ lookupFile path wd.files = some .corrupt ∨ io.openOk = false) →
      readContainer io path a b wd = (.error .ioError, wd)) ∧
    (∀ c, lookupFile path wd.files = some (.container c) → io.openOk = true → c.wf = true → c.channels ≠ 1 →
      (readContainer io path a b wd).1 = .error .unsupportedConfiguration ∧ (readContainer io path a b wd).2.block = wd.block) ∧
    (∀ c, wd.ready → lookupFile path wd.files = some (.container c) →
      (a < 0 ∨ b < 0 ∨ (c.frameCount : Int) < a ∨ (b ≠ 0 ∧ ((c.frameCount : Int) ≤ b ∨ b < a))) →
      ∃ e, (readContainer io path a b wd).1 = .error e ∧
        (c.channels = 1 → 1 ≤ c.sampleWidth → c.sampleWidth ≤ 4 → e = .ioError ∨ e = .malformedInput))

/-- R127: the handle is released on every exit path of both functions, whatever fails; and a call that failed handed no data back. -/
def Obligations.ContainerHandlesAreReleased : Prop :=
  ∀ (io : IoEvents) (path : String) (wd : World), wd.handle = none →
    (∀ a b, (readContainer io path a b wd).2.handle = none) ∧
    (∀ samples w rate, (writeContainer io path samples w rate wd).2.handle = none)

/-- R125, R126: a successful `writeContainer` commits a mono record whose frame count is the number of samples and whose payload is their
encoding, replacing what the path held and touching no other path; an unsupported width is an error and touches no other path. What a failure
leaves at the path is free (log entry 11); that the encode's error is kept when the close fails as well is the model's choice (log
entry 12). -/
def Obligations.WriteContainerCommitsTheRecord : Prop :=
  (∀ (path : String) (samples : List Int) (w : Width) (rate : Nat) (wd : World), wd.ready →
    (∀ x, x ∈ samples → -2147483648 ≤ x ∧ x ≤ 2147483647) →
    (writeContainer .fine path samples w.bytes rate wd).1 = .value () ∧
    lookupFile path (writeContainer .fine path samples w.bytes rate wd).2.files =
      some (.container
        { channels := 1, sampleWidth := w.bytes, frameRate := rate, frameCount := samples.length,
          payload := encodeBuffer (samples.map (BitVec.ofInt 32)) w })) ∧
  (∀ (io : IoEvents) (path other : String) (samples : List Int) (w : Int) (rate : Nat) (wd : World), other ≠ path →
    lookupFile other (writeContainer io path samples w rate wd).2.files = lookupFile other wd.files) ∧
  (∀ (io : IoEvents) (path : String) (samples : List Int) (w : Int) (rate : Nat) (wd : World), wd.ready → io.openOk = true →
    ¬ (1 ≤ w ∧ w ≤ 4) → (∀ x, x ∈ samples → -2147483648 ≤ x ∧ x ≤ 2147483647) →
    (writeContainer io path samples w rate wd).1 = .error .unsupportedConfiguration)

/-! ## Bounds -/

/-- R5, R17, U11: in a block with `FC_BITS` bits, from a state of the invariant whose counts fit, every turn keeps them below
`2^FC_BITS`: `FRAMECOUNT`, `IDX` and the number of samples, which is the frame count of an encode; and an encode of a `SMP` within
`SMP_CAP` fits `RAW_CAP`. That `FC_BITS` bounds `LOADSMP` is DEDUCED, log entry 8; turns are log entry 1. -/
def Obligations.BoundedCountsStayBelowTheRegisterWidth : Prop :=
  (∀ (b : Bounds) (k : Nat) (s t : State), b.fcBits = some k → Inv s →
    s.frameCount < 2 ^ k → s.idx < 2 ^ k → s.smp.length < 2 ^ k → takeTurn b s = .next t →
    t.frameCount < 2 ^ k ∧ t.idx < 2 ^ k ∧ t.smp.length < 2 ^ k) ∧
  (∀ (b : Bounds) (r c : Nat) (smp : List Word) (w : Width), b.wf = true → b.rawCap = some r → b.smpCap = some c →
    smp.length ≤ c → (encodeBuffer smp w).length ≤ r)
end

