-- ==== Sys2Proof/Laws/State.lean ====
section
/-! SUPPORT. Laws/State.lean: what each update of the state does to each field, one lemma per field, so that no later proof unfolds a record
update. -/

namespace Sys2Proof.Machine

@[simp] theorem raiseError_cmd (e : CodecError) (s : State) : (raiseError e s).cmd = s.cmd := rfl
@[simp] theorem raiseError_frameCount (e : CodecError) (s : State) : (raiseError e s).frameCount = s.frameCount := rfl
@[simp] theorem raiseError_status (e : CodecError) (s : State) : (raiseError e s).status = .error := rfl
@[simp] theorem raiseError_err (e : CodecError) (s : State) : (raiseError e s).err = e.err := rfl
@[simp] theorem raiseError_idx (e : CodecError) (s : State) : (raiseError e s).idx = s.idx := rfl
@[simp] theorem raiseError_raw (e : CodecError) (s : State) : (raiseError e s).raw = s.raw := rfl
@[simp] theorem raiseError_smp (e : CodecError) (s : State) : (raiseError e s).smp = s.smp := rfl
@[simp] theorem raiseError_turns (e : CodecError) (s : State) : (raiseError e s).turns = s.turns := rfl
@[simp] theorem raiseError_replies (e : CodecError) (s : State) : (raiseError e s).replies = s.replies := rfl
@[simp] theorem raiseError_freeReads (e : CodecError) (s : State) : (raiseError e s).freeReads = s.freeReads := rfl

@[simp] theorem writeCmd_cmd (c : BitVec 4) (s : State) : (writeCmd c s).cmd = c := rfl
@[simp] theorem writeCmd_frameCount (c : BitVec 4) (s : State) : (writeCmd c s).frameCount = s.frameCount := rfl
@[simp] theorem writeCmd_status (c : BitVec 4) (s : State) : (writeCmd c s).status = s.status := rfl
@[simp] theorem writeCmd_err (c : BitVec 4) (s : State) : (writeCmd c s).err = s.err := rfl
@[simp] theorem writeCmd_idx (c : BitVec 4) (s : State) : (writeCmd c s).idx = s.idx := rfl
@[simp] theorem writeCmd_raw (c : BitVec 4) (s : State) : (writeCmd c s).raw = s.raw := rfl
@[simp] theorem writeCmd_smp (c : BitVec 4) (s : State) : (writeCmd c s).smp = s.smp := rfl
@[simp] theorem writeCmd_turns (c : BitVec 4) (s : State) : (writeCmd c s).turns = s.turns := rfl
@[simp] theorem writeCmd_replies (c : BitVec 4) (s : State) : (writeCmd c s).replies = s.replies := rfl
@[simp] theorem writeCmd_freeReads (c : BitVec 4) (s : State) : (writeCmd c s).freeReads = s.freeReads := rfl

@[simp] theorem startDecode_cmd (s : State) : (startDecode s).cmd = s.cmd := rfl
@[simp] theorem startDecode_frameCount (s : State) : (startDecode s).frameCount = s.frameCount := rfl
@[simp] theorem startDecode_status (s : State) : (startDecode s).status = .busy := rfl
@[simp] theorem startDecode_err (s : State) : (startDecode s).err = .none := rfl
@[simp] theorem startDecode_idx (s : State) : (startDecode s).idx = 0 := rfl
@[simp] theorem startDecode_raw (s : State) : (startDecode s).raw = s.raw := rfl
@[simp] theorem startDecode_smp (s : State) : (startDecode s).smp = [] := rfl
@[simp] theorem startDecode_turns (s : State) : (startDecode s).turns = s.turns := rfl
@[simp] theorem startDecode_replies (s : State) : (startDecode s).replies = s.replies := rfl
@[simp] theorem startDecode_freeReads (s : State) : (startDecode s).freeReads = s.freeReads := rfl

@[simp] theorem startEncode_cmd (s : State) : (startEncode s).cmd = s.cmd := rfl
@[simp] theorem startEncode_frameCount (s : State) : (startEncode s).frameCount = s.frameCount := rfl
@[simp] theorem startEncode_status (s : State) : (startEncode s).status = .busy := rfl
@[simp] theorem startEncode_err (s : State) : (startEncode s).err = .none := rfl
@[simp] theorem startEncode_idx (s : State) : (startEncode s).idx = 0 := rfl
@[simp] theorem startEncode_raw (s : State) : (startEncode s).raw = [] := rfl
@[simp] theorem startEncode_smp (s : State) : (startEncode s).smp = s.smp := rfl
@[simp] theorem startEncode_turns (s : State) : (startEncode s).turns = s.turns := rfl
@[simp] theorem startEncode_replies (s : State) : (startEncode s).replies = s.replies := rfl
@[simp] theorem startEncode_freeReads (s : State) : (startEncode s).freeReads = s.freeReads := rfl

@[simp] theorem complete_cmd (s : State) : (complete s).cmd = s.cmd := rfl
@[simp] theorem complete_frameCount (s : State) : (complete s).frameCount = s.frameCount := rfl
@[simp] theorem complete_status (s : State) : (complete s).status = .done := rfl
@[simp] theorem complete_err (s : State) : (complete s).err = s.err := rfl
@[simp] theorem complete_idx (s : State) : (complete s).idx = s.idx := rfl
@[simp] theorem complete_raw (s : State) : (complete s).raw = s.raw := rfl
@[simp] theorem complete_smp (s : State) : (complete s).smp = s.smp := rfl
@[simp] theorem complete_turns (s : State) : (complete s).turns = s.turns := rfl
@[simp] theorem complete_replies (s : State) : (complete s).replies = s.replies := rfl
@[simp] theorem complete_freeReads (s : State) : (complete s).freeReads = s.freeReads := rfl

@[simp] theorem loadRaw_cmd (bytes : List Byte) (s : State) : (loadRaw bytes s).cmd = s.cmd := rfl
@[simp] theorem loadRaw_frameCount (bytes : List Byte) (s : State) : (loadRaw bytes s).frameCount = s.frameCount := rfl
@[simp] theorem loadRaw_status (bytes : List Byte) (s : State) : (loadRaw bytes s).status = s.status := rfl
@[simp] theorem loadRaw_err (bytes : List Byte) (s : State) : (loadRaw bytes s).err = s.err := rfl
@[simp] theorem loadRaw_idx (bytes : List Byte) (s : State) : (loadRaw bytes s).idx = s.idx := rfl
@[simp] theorem loadRaw_raw (bytes : List Byte) (s : State) : (loadRaw bytes s).raw = bytes := rfl
@[simp] theorem loadRaw_smp (bytes : List Byte) (s : State) : (loadRaw bytes s).smp = s.smp := rfl
@[simp] theorem loadRaw_turns (bytes : List Byte) (s : State) : (loadRaw bytes s).turns = s.turns := rfl
@[simp] theorem loadRaw_replies (bytes : List Byte) (s : State) : (loadRaw bytes s).replies = s.replies := rfl
@[simp] theorem loadRaw_freeReads (bytes : List Byte) (s : State) : (loadRaw bytes s).freeReads = s.freeReads := rfl

@[simp] theorem loadSmp_cmd (samples : List Word) (s : State) : (loadSmp samples s).cmd = s.cmd := rfl
@[simp] theorem loadSmp_frameCount (samples : List Word) (s : State) : (loadSmp samples s).frameCount = s.frameCount := rfl
@[simp] theorem loadSmp_status (samples : List Word) (s : State) : (loadSmp samples s).status = s.status := rfl
@[simp] theorem loadSmp_err (samples : List Word) (s : State) : (loadSmp samples s).err = s.err := rfl
@[simp] theorem loadSmp_idx (samples : List Word) (s : State) : (loadSmp samples s).idx = s.idx := rfl
@[simp] theorem loadSmp_raw (samples : List Word) (s : State) : (loadSmp samples s).raw = s.raw := rfl
@[simp] theorem loadSmp_smp (samples : List Word) (s : State) : (loadSmp samples s).smp = samples := rfl
@[simp] theorem loadSmp_turns (samples : List Word) (s : State) : (loadSmp samples s).turns = s.turns := rfl
@[simp] theorem loadSmp_replies (samples : List Word) (s : State) : (loadSmp samples s).replies = s.replies := rfl
@[simp] theorem loadSmp_freeReads (samples : List Word) (s : State) : (loadSmp samples s).freeReads = s.freeReads := rfl

@[simp] theorem setFrameCount_cmd (n : Nat) (s : State) : (setFrameCount n s).cmd = s.cmd := rfl
@[simp] theorem setFrameCount_frameCount (n : Nat) (s : State) : (setFrameCount n s).frameCount = n := rfl
@[simp] theorem setFrameCount_status (n : Nat) (s : State) : (setFrameCount n s).status = s.status := rfl
@[simp] theorem setFrameCount_err (n : Nat) (s : State) : (setFrameCount n s).err = s.err := rfl
@[simp] theorem setFrameCount_idx (n : Nat) (s : State) : (setFrameCount n s).idx = s.idx := rfl
@[simp] theorem setFrameCount_raw (n : Nat) (s : State) : (setFrameCount n s).raw = s.raw := rfl
@[simp] theorem setFrameCount_smp (n : Nat) (s : State) : (setFrameCount n s).smp = s.smp := rfl
@[simp] theorem setFrameCount_turns (n : Nat) (s : State) : (setFrameCount n s).turns = s.turns := rfl
@[simp] theorem setFrameCount_replies (n : Nat) (s : State) : (setFrameCount n s).replies = s.replies := rfl
@[simp] theorem setFrameCount_freeReads (n : Nat) (s : State) : (setFrameCount n s).freeReads = s.freeReads := rfl

@[simp] theorem reply_cmd (r : Reply) (s : State) : (reply r s).cmd = s.cmd := rfl
@[simp] theorem reply_frameCount (r : Reply) (s : State) : (reply r s).frameCount = s.frameCount := rfl
@[simp] theorem reply_status (r : Reply) (s : State) : (reply r s).status = s.status := rfl
@[simp] theorem reply_err (r : Reply) (s : State) : (reply r s).err = s.err := rfl
@[simp] theorem reply_idx (r : Reply) (s : State) : (reply r s).idx = s.idx := rfl
@[simp] theorem reply_raw (r : Reply) (s : State) : (reply r s).raw = s.raw := rfl
@[simp] theorem reply_smp (r : Reply) (s : State) : (reply r s).smp = s.smp := rfl
@[simp] theorem reply_turns (r : Reply) (s : State) : (reply r s).turns = s.turns := rfl
@[simp] theorem reply_replies (r : Reply) (s : State) : (reply r s).replies = r :: s.replies := rfl
@[simp] theorem reply_freeReads (r : Reply) (s : State) : (reply r s).freeReads = s.freeReads := rfl

@[simp] theorem freeReply_cmd (r : Reply) (s : State) : (freeReply r s).cmd = s.cmd := rfl
@[simp] theorem freeReply_frameCount (r : Reply) (s : State) : (freeReply r s).frameCount = s.frameCount := rfl
@[simp] theorem freeReply_status (r : Reply) (s : State) : (freeReply r s).status = s.status := rfl
@[simp] theorem freeReply_err (r : Reply) (s : State) : (freeReply r s).err = s.err := rfl
@[simp] theorem freeReply_idx (r : Reply) (s : State) : (freeReply r s).idx = s.idx := rfl
@[simp] theorem freeReply_raw (r : Reply) (s : State) : (freeReply r s).raw = s.raw := rfl
@[simp] theorem freeReply_smp (r : Reply) (s : State) : (freeReply r s).smp = s.smp := rfl
@[simp] theorem freeReply_turns (r : Reply) (s : State) : (freeReply r s).turns = s.turns := rfl
@[simp] theorem freeReply_replies (r : Reply) (s : State) : (freeReply r s).replies = r :: s.replies := rfl
@[simp] theorem freeReply_freeReads (r : Reply) (s : State) : (freeReply r s).freeReads = s.freeReads + 1 := rfl

@[simp] theorem resetBlock_cmd (s : State) : (resetBlock s).cmd = State.reset.cmd := rfl
@[simp] theorem resetBlock_frameCount (s : State) : (resetBlock s).frameCount = State.reset.frameCount := rfl
@[simp] theorem resetBlock_status (s : State) : (resetBlock s).status = State.reset.status := rfl
@[simp] theorem resetBlock_err (s : State) : (resetBlock s).err = State.reset.err := rfl
@[simp] theorem resetBlock_idx (s : State) : (resetBlock s).idx = State.reset.idx := rfl
@[simp] theorem resetBlock_raw (s : State) : (resetBlock s).raw = State.reset.raw := rfl
@[simp] theorem resetBlock_smp (s : State) : (resetBlock s).smp = State.reset.smp := rfl
@[simp] theorem resetBlock_turns (s : State) : (resetBlock s).turns = s.turns := rfl
@[simp] theorem resetBlock_replies (s : State) : (resetBlock s).replies = s.replies := rfl
@[simp] theorem resetBlock_freeReads (s : State) : (resetBlock s).freeReads = s.freeReads := rfl

end Sys2Proof.Machine
end

