-- ==== Sys2Proof/Laws/Conversion.lean ====
section
/-! SUPPORT. Laws/Conversion.lean: what the operand forms do, said once: buffer reads and writes, the shape of a group, and the whole-buffer
functions frame by frame. -/

namespace Sys2Proof.Machine

@[simp] theorem bytes_pos (w : Width) : 0 < w.bytes := by cases w <;> decide

theorem memRead_inside {α : Type} {buf : List α} {addr n : Nat} (h : addr + n ≤ buf.length) :
    memRead buf addr n = some ((buf.drop addr).take n) := if_pos h

theorem memRead_length {α : Type} {buf : List α} {addr n : Nat} {g : List α} (h : memRead buf addr n = some g) :
    g.length = n := by
  unfold memRead at h
  split at h
  · cases h
    rw [List.length_take, List.length_drop]
    omega
  · cases h

theorem memRead_cell {α : Type} {buf : List α} {addr n : Nat} {g : List α} (h : memRead buf addr n = some g) (k : Nat)
    (hk : k < n) : g[k]? = buf[addr + k]? := by
  unfold memRead at h
  split at h
  · cases h
    rw [List.getElem?_take_of_lt hk, List.getElem?_drop]
  · cases h

theorem memRead_one {α : Type} {buf : List α} {i : Nat} {v : α} (h : buf[i]? = some v) : memRead buf i 1 = some [v] := by
  obtain ⟨hi, rfl⟩ := List.getElem?_eq_some_iff.mp h
  rw [memRead_inside (by omega), List.drop_eq_getElem_cons hi, List.take_succ_cons, List.take_zero]

theorem memWrite_append {α : Type} (buf cells : List α) : memWrite buf buf.length cells = some (buf ++ cells) := if_pos rfl

theorem memWrite_some {α : Type} {buf cells out : List α} {addr : Nat} (h : memWrite buf addr cells = some out) :
    addr = buf.length ∧ out = buf ++ cells := by
  unfold memWrite at h
  split at h
  · cases h; exact ⟨‹_›, rfl⟩
  · cases h

/-- A group of the right length converts; one of another length does not. -/
theorem unpackGroup_isSome {w : Width} {g : List Byte} : (∃ v, unpackGroup w g = some v) ↔ g.length = w.bytes := by
  cases w <;> rcases g with _ | ⟨a, _ | ⟨b, _ | ⟨c, _ | ⟨d, _ | ⟨e, g⟩⟩⟩⟩⟩ <;> simp [unpackGroup, Width.bytes]

@[simp] theorem packGroup_length (w : Width) (v : Word) : (packGroup w v).length = w.bytes := by
  cases w <;> rfl

@[simp] theorem encodeBuffer_nil (w : Width) : encodeBuffer [] w = [] := rfl

@[simp] theorem encodeBuffer_cons (w : Width) (v : Word) (smp : List Word) :
    encodeBuffer (v :: smp) w = packGroup w v ++ encodeBuffer smp w := rfl

theorem encodeBuffer_append (w : Width) (a b : List Word) :
    encodeBuffer (a ++ b) w = encodeBuffer a w ++ encodeBuffer b w := List.flatMap_append

/-- A frame inside the buffer has a sample. -/
theorem frameSample_inside {w : Width} {raw : List Byte} {i : Nat} (h : i * w.bytes + w.bytes ≤ raw.length) :
    ∃ g v, memRead raw (i * w.bytes) w.bytes = some g ∧ unpackGroup w g = some v ∧ frameSample w raw i = some v := by
  have hr := memRead_inside h
  obtain ⟨v, hv⟩ := unpackGroup_isSome.mpr (memRead_length hr)
  exact ⟨_, v, hr, hv, by rw [frameSample, hr]; exact hv⟩

/-- Frame `i` of `n` frames of `w` bytes lies inside them. -/
theorem frame_fits {i n w : Nat} (h : i < n) : i * w + w ≤ n * w := by
  calc i * w + w = (i + 1) * w := by rw [Nat.succ_mul]
    _ ≤ n * w := Nat.mul_le_mul_right w h

theorem decodePrefix_succ {w : Width} {raw : List Byte} {n : Nat} {out : List Word} {v : Word}
    (h : decodePrefix w raw n = some out) (hv : frameSample w raw n = some v) :
    decodePrefix w raw (n + 1) = some (out ++ [v]) := by
  simp [decodePrefix, h, hv]

/-- Inside the buffer every prefix converts. -/
theorem decodePrefix_inside {w : Width} {raw : List Byte} (n : Nat) (h : n * w.bytes ≤ raw.length) :
    ∃ out, decodePrefix w raw n = some out := by
  induction n with
  | zero => exact ⟨[], rfl⟩
  | succ n ih =>
    rw [Nat.succ_mul] at h
    obtain ⟨out, ho⟩ := ih (by omega)
    obtain ⟨_, v, _, _, hv⟩ := frameSample_inside (w := w) (i := n) h
    exact ⟨_, decodePrefix_succ ho hv⟩

theorem decodePrefix_succ_inv {w : Width} {raw : List Byte} {n : Nat} {out : List Word}
    (h : decodePrefix w raw (n + 1) = some out) :
    ∃ before v, decodePrefix w raw n = some before ∧ frameSample w raw n = some v ∧ out = before ++ [v] := by
  simp only [decodePrefix, Option.bind_eq_some_iff, Option.map_eq_some_iff] at h
  obtain ⟨before, hb, v, hv, rfl⟩ := h
  exact ⟨before, v, hb, hv, rfl⟩

theorem decodePrefix_length {w : Width} {raw : List Byte} {n : Nat} {out : List Word} (h : decodePrefix w raw n = some out) :
    out.length = n := by
  induction n generalizing out with
  | zero => cases h; rfl
  | succ n ih =>
    obtain ⟨before, v, hb, _, rfl⟩ := decodePrefix_succ_inv h
    simp [ih hb]

/-- Sample `i` of a prefix is the sample of frame `i`. -/
theorem decodePrefix_get {w : Width} {raw : List Byte} {n : Nat} {out : List Word} (h : decodePrefix w raw n = some out)
    (i : Nat) (hi : i < n) : out[i]? = frameSample w raw i := by
  induction n generalizing out with
  | zero => omega
  | succ n ih =>
    obtain ⟨before, v, hb, hv, rfl⟩ := decodePrefix_succ_inv h
    have hl := decodePrefix_length hb
    rcases Nat.lt_succ_iff_lt_or_eq.mp hi with hlt | rfl
    · rw [List.getElem?_append_left (by omega), ih hb hlt]
    · rw [List.getElem?_append_right (by omega), hl, hv]
      simp

theorem decodeBuffer_of_length {w : Width} {raw : List Byte} {n : Nat} (h : raw.length = n * w.bytes) :
    ∃ out, decodeBuffer raw n w = some out ∧ decodePrefix w raw n = some out ∧ out.length = n := by
  obtain ⟨out, ho⟩ := decodePrefix_inside (w := w) (raw := raw) n (by omega)
  exact ⟨out, by rw [decodeBuffer, if_pos h, ho], ho, decodePrefix_length ho⟩

theorem decodeBuffer_malformed {w : Width} {raw : List Byte} {n : Nat} (h : raw.length ≠ n * w.bytes) :
    decodeBuffer raw n w = none := if_neg h

/-- The addressed view of a buffer is in canonical form, whatever operation made the buffer. -/
theorem memory_wfFrom (a : Nat) (buf : List Byte) : Memory.wfFrom a (Memory.cellsFrom a buf) = true := by
  induction buf generalizing a with
  | nil => rfl
  | cons b rest ih => simp [Memory.cellsFrom, Memory.wfFrom, ih]

/-- The memory of every state, `State.reset` and every state an operation leaves among them, is in canonical form. -/
theorem memory_wf (s : State) : Memory.wf s = true := memory_wfFrom 0 s.raw

/-- The addressed view holds exactly the bytes that a read of one byte gives. -/
theorem memory_cellsFrom_mem (a k : Nat) (b : Byte) (buf : List Byte) :
    (k, b) ∈ Memory.cellsFrom a buf ↔ a ≤ k ∧ buf[k - a]? = some b := by
  induction buf generalizing a with
  | nil => simp [Memory.cellsFrom]
  | cons c rest ih =>
    simp only [Memory.cellsFrom, List.mem_cons, Prod.mk.injEq, ih]
    rcases Nat.lt_trichotomy k a with h | rfl | h
    · constructor
      · rintro (⟨rfl, _⟩ | ⟨h', _⟩) <;> omega
      · rintro ⟨h', _⟩; omega
    · simp [eq_comm]
    · rw [show k - a = (k - (a + 1)) + 1 by omega, List.getElem?_cons_succ]
      constructor
      · rintro (⟨rfl, _⟩ | ⟨_, h'⟩)
        · omega
        · exact ⟨by omega, h'⟩
      · rintro ⟨_, h'⟩
        exact .inr ⟨by omega, h'⟩

theorem memory_cells_mem (s : State) (k : Nat) (b : Byte) : (k, b) ∈ Memory.cells s ↔ readRaw s k = some b := by
  simp [Memory.cells, memory_cellsFrom_mem, readRaw]

end Sys2Proof.Machine
end

