-- ==== Sys2Proof/Laws/Block.lean ====
section
/-! SUPPORT. Laws/Block.lean: the decoder's small lemmas, and for each shared operation of the block one lemma that says everything it can do;
the provers cite these instead of unfolding. -/

namespace Sys2Proof.Machine

/-! ### The command word -/

theorem encode_ofDirWidth (d : Direction) (w : Width) : encode (Instr.ofDirWidth d w) = commandWord d w := by
  cases d <;> cases w <;> rfl

theorem decode_ok_iff (c : BitVec 4) (i : Instr) : decode c = .ok i ↔ c = encode i := by
  constructor
  · intro h
    have back : ∀ c : BitVec 4, (Width.ofField (widthField c)).all (fun w => c == commandWord (dirField c) w) = true := by
      decide
    have hb := back c
    unfold decode at h
    split at h
    · rename_i w hw
      cases h
      rw [hw] at hb
      have hc := eq_of_beq hb
      rw [encode_ofDirWidth]
      exact hc
    · cases h
  · rintro rfl
    cases i <;> rfl

theorem decode_encode (i : Instr) : decode (encode i) = .ok i := (decode_ok_iff _ _).mpr rfl

theorem ofDirWidth_dir_width (i : Instr) : Instr.ofDirWidth i.dir i.width = i := by cases i <;> rfl

theorem decode_commandWord (d : Direction) (w : Width) : decode (commandWord d w) = .ok (Instr.ofDirWidth d w) := by
  cases d <;> cases w <;> rfl

@[simp] theorem dirField_commandWord (d : Direction) (w : Width) : dirField (commandWord d w) = d := by
  cases d <;> cases w <;> rfl

@[simp] theorem dirField_encode (i : Instr) : dirField (encode i) = i.dir := by cases i <;> rfl

theorem commandWord_inj {d d' : Direction} {w w' : Width} (h : commandWord d w = commandWord d' w') : d = d' ∧ w = w' := by
  revert h; cases d <;> cases d' <;> cases w <;> cases w' <;> decide

/-! ### What `exec` is -/

/-- Each meaning is the shared operation of its direction at its width. -/
theorem exec_eq (i : Instr) (s : State) :
    exec i s = match i.dir with
      | .decode => runDecode i.width s
      | .encode => runEncode i.width s := by
  cases i <;> rfl

theorem exec_decode (w : Width) (s : State) : exec (Instr.ofDirWidth .decode w) s = runDecode w s := by cases w <;> rfl

theorem exec_encode (w : Width) (s : State) : exec (Instr.ofDirWidth .encode w) s = runEncode w s := by cases w <;> rfl

theorem exec_of_decode {i : Instr} (h : i.dir = .decode) (s : State) : exec i s = runDecode i.width s := by
  rw [exec_eq, h]

theorem exec_of_encode {i : Instr} (h : i.dir = .encode) (s : State) : exec i s = runEncode i.width s := by
  rw [exec_eq, h]

/-! ### The shared operations, every outcome -/

theorem runDecode_ready {w : Width} {s : State} (h : s.status ≠ .busy) :
    runDecode w s = .next (admitDecode w (writeCmd (commandWord .decode w) s)) := by
  unfold runDecode; split
  · exact absurd ‹_› h
  · rfl

theorem runEncode_ready {w : Width} {s : State} (h : s.status ≠ .busy) :
    runEncode w s = .next (admitEncode (writeCmd (commandWord .encode w) s)) := by
  unfold runEncode; split
  · exact absurd ‹_› h
  · rfl

theorem runDecode_inFlight {w : Width} {s : State} (h : s.status = .busy) (hc : s.cmd = commandWord .decode w) :
    runDecode w s = decodeBlockStep w s := by
  simp only [runDecode, h, hc, if_pos]

theorem runEncode_inFlight {w : Width} {s : State} (h : s.status = .busy) (hc : s.cmd = commandWord .encode w) :
    runEncode w s = encodeBlockStep w s := by
  simp only [runEncode, h, hc, if_pos]

theorem runDecode_dropped {w : Width} {s : State} (h : s.status = .busy) (hc : s.cmd ≠ commandWord .decode w) :
    runDecode w s = .next s := by
  simp only [runDecode, h, if_neg hc]

theorem runEncode_dropped {w : Width} {s : State} (h : s.status = .busy) (hc : s.cmd ≠ commandWord .encode w) :
    runEncode w s = .next s := by
  simp only [runEncode, h, if_neg hc]

/-- Everything the frame step of a decode can do when it answers a next state. -/
theorem decodeFrame_next {w : Width} {s t : State} (h : decodeFrame w s = .next t) :
    ∃ g v, memRead s.raw (s.idx * w.bytes) w.bytes = some g ∧ unpackGroup w g = some v ∧ s.idx = s.smp.length ∧
      t = { s with smp := s.smp ++ [v], idx := s.idx + 1 } := by
  unfold decodeFrame at h
  split at h
  · cases h
  · split at h
    · cases h
    · split at h
      · cases h
      · obtain ⟨hi, rfl⟩ := memWrite_some ‹memWrite s.smp s.idx _ = _›
        cases h
        exact ⟨_, _, ‹_›, ‹_›, hi, rfl⟩

/-- Everything the frame step of an encode can do when it answers a next state. -/
theorem encodeFrame_next {w : Width} {s t : State} (h : encodeFrame w s = .next t) :
    ∃ v, memRead s.smp s.idx 1 = some [v] ∧ s.idx * w.bytes = s.raw.length ∧
      t = { s with raw := s.raw ++ packGroup w v, idx := s.idx + 1 } := by
  unfold encodeFrame at h
  split at h
  · split at h
    · cases h
    · obtain ⟨hi, rfl⟩ := memWrite_some ‹memWrite s.raw _ _ = _›
      cases h
      exact ⟨_, ‹_›, hi, rfl⟩
  · cases h

theorem decodeFrame_runs {w : Width} {s : State} {v : Word} (hv : frameSample w s.raw s.idx = some v)
    (hl : s.smp.length = s.idx) : decodeFrame w s = .next { s with smp := s.smp ++ [v], idx := s.idx + 1 } := by
  simp only [frameSample, Option.bind_eq_some_iff] at hv
  obtain ⟨g, hg, hu⟩ := hv
  have hw : memWrite s.smp s.idx [v] = some (s.smp ++ [v]) := by rw [← hl, memWrite_append]
  simp only [decodeFrame, hg, hu, hw]

theorem encodeFrame_runs {w : Width} {s : State} {v : Word} (hv : s.smp[s.idx]? = some v)
    (hl : s.raw.length = s.idx * w.bytes) :
    encodeFrame w s = .next { s with raw := s.raw ++ packGroup w v, idx := s.idx + 1 } := by
  have hw : memWrite s.raw (s.idx * w.bytes) (packGroup w v) = some (s.raw ++ packGroup w v) := by rw [← hl, memWrite_append]
  simp only [encodeFrame, memRead_one hv, hw]

/-- Everything the block's step of a decode in flight can do when it answers a next state. -/
theorem decodeBlockStep_next {w : Width} {s t : State} (h : decodeBlockStep w s = .next t) :
    (s.idx < s.frameCount ∧ ∃ g v, memRead s.raw (s.idx * w.bytes) w.bytes = some g ∧ unpackGroup w g = some v ∧
      s.idx = s.smp.length ∧ t = { s with smp := s.smp ++ [v], idx := s.idx + 1 }) ∨
    (s.idx = s.frameCount ∧ t = complete s) := by
  unfold decodeBlockStep at h
  split at h
  · exact .inl ⟨‹_›, decodeFrame_next h⟩
  · split at h
    · cases h; exact .inr ⟨‹_›, rfl⟩
    · cases h

/-- Everything the block's step of an encode in flight can do when it answers a next state. -/
theorem encodeBlockStep_next {w : Width} {s t : State} (h : encodeBlockStep w s = .next t) :
    (s.idx < s.smp.length ∧ ∃ v, memRead s.smp s.idx 1 = some [v] ∧ s.idx * w.bytes = s.raw.length ∧
      t = { s with raw := s.raw ++ packGroup w v, idx := s.idx + 1 }) ∨
    (s.idx = s.smp.length ∧ t = complete s) := by
  unfold encodeBlockStep at h
  split at h
  · exact .inl ⟨‹_›, encodeFrame_next h⟩
  · split at h
    · cases h; exact .inr ⟨‹_›, rfl⟩
    · cases h

theorem admitDecode_cases (w : Width) (s : State) :
    (s.raw.length = s.frameCount * w.bytes ∧ admitDecode w s = startDecode s) ∨
    (s.raw.length ≠ s.frameCount * w.bytes ∧ admitDecode w s = raiseError .malformedInput s) := by
  unfold admitDecode; split
  · exact .inl ⟨‹_›, rfl⟩
  · exact .inr ⟨‹_›, rfl⟩

/-! ### Turns -/

theorem fits_unbounded (op : HostOp) : op.fits Config.bounds = true := by cases op <;> rfl

theorem bounds_wf : Config.bounds.wf = true := rfl

/-- Under well-formed bounds a turn of the host either finds its operand too large or does what R100 says. -/
theorem hostTurn_cases {b : Bounds} (op : HostOp) (s : State) (hb : b.wf = true) :
    (op.fits b = false ∧ hostTurn b op s = .refused .overBound) ∨
    (op.fits b = true ∧ s.status = .busy ∧ hostTurn b op s = hostBusy op s) ∨
    (op.fits b = true ∧ s.status ≠ .busy ∧ hostTurn b op s = hostReady op s) := by
  unfold hostTurn
  rw [if_pos hb]
  by_cases hf : op.fits b = true
  · rw [if_pos hf]
    split
    · exact .inr (.inl ⟨hf, ‹_›, rfl⟩)
    · exact .inr (.inr ⟨hf, ‹_›, rfl⟩)
  · rw [if_neg hf]
    exact .inl ⟨by simpa using hf, rfl⟩

theorem hostTurn_ready {op : HostOp} {s : State} (h : s.status ≠ .busy) :
    hostTurn Config.bounds op s = hostReady op s := by
  rw [hostTurn, if_pos bounds_wf, if_pos (fits_unbounded op)]
  split
  · exact absurd ‹_› h
  · rfl

theorem hostTurn_busy {op : HostOp} {s : State} (h : s.status = .busy) :
    hostTurn Config.bounds op s = hostBusy op s := by
  rw [hostTurn, if_pos bounds_wf, if_pos (fits_unbounded op), h]

theorem blockTurn_ready {s : State} (h : s.status ≠ .busy) : blockTurn s = .next s := by
  unfold blockTurn; split
  · exact absurd ‹_› h
  · rfl

theorem blockTurn_inFlight {s : State} {i : Instr} (h : s.status = .busy) (hc : s.cmd = encode i) :
    blockTurn s = exec i s := by
  simp only [blockTurn, h, hc, decode_encode]

theorem blockTurn_decode {w : Width} {s : State} (h : s.status = .busy) (hc : s.cmd = commandWord .decode w) :
    blockTurn s = decodeBlockStep w s := by
  rw [blockTurn_inFlight (i := Instr.ofDirWidth .decode w) h (by rw [encode_ofDirWidth, hc]), exec_decode,
    runDecode_inFlight h hc]

theorem blockTurn_encode {w : Width} {s : State} (h : s.status = .busy) (hc : s.cmd = commandWord .encode w) :
    blockTurn s = encodeBlockStep w s := by
  rw [blockTurn_inFlight (i := Instr.ofDirWidth .encode w) h (by rw [encode_ofDirWidth, hc]), exec_encode,
    runEncode_inFlight h hc]

/-- Everything a turn of the block can do when it answers a next state. -/
theorem blockTurn_next {s t : State} (h : blockTurn s = .next t) :
    (s.status ≠ .busy ∧ t = s) ∨
    (s.status = .busy ∧ ∃ w, s.cmd = commandWord .decode w ∧ decodeBlockStep w s = .next t) ∨
    (s.status = .busy ∧ ∃ w, s.cmd = commandWord .encode w ∧ encodeBlockStep w s = .next t) := by
  by_cases hb : s.status = .busy
  · have h' := h
    simp only [blockTurn, hb] at h'
    split at h'
    · rename_i i hi
      have hc := (decode_ok_iff _ _).mp hi
      have hw : s.cmd = commandWord i.dir i.width := hc
      cases hd : i.dir
      · rw [hd] at hw
        exact .inr (.inl ⟨hb, i.width, hw, by rw [← blockTurn_decode hb hw]; exact h⟩)
      · rw [hd] at hw
        exact .inr (.inr ⟨hb, i.width, hw, by rw [← blockTurn_encode hb hw]; exact h⟩)
    · cases h'
  · rw [blockTurn_ready hb] at h
    cases h
    exact .inl ⟨hb, rfl⟩

/-- Everything an `ISSUE` can do on a block that is not `BUSY`: it always answers a next state. -/
theorem issueWord_cases (c : BitVec 4) {s : State} (h : s.status ≠ .busy) :
    (Width.ofField (widthField c) = none ∧ issueWord c s = .next (raiseError .unsupportedConfiguration (writeCmd c s))) ∨
    (∃ w, c = commandWord .decode w ∧ issueWord c s = .next (admitDecode w (writeCmd c s))) ∨
    (∃ w, c = commandWord .encode w ∧ issueWord c s = .next (admitEncode (writeCmd c s))) := by
  unfold issueWord
  split
  · rename_i i hi
    have hc : c = commandWord i.dir i.width := (decode_ok_iff _ _).mp hi
    cases hd : i.dir
    · rw [hd] at hc
      exact .inr (.inl ⟨i.width, hc, by rw [exec_of_decode hd, runDecode_ready h, hc]⟩)
    · rw [hd] at hc
      exact .inr (.inr ⟨i.width, hc, by rw [exec_of_encode hd, runEncode_ready h, hc]⟩)
  · rename_i hr
    refine .inl ⟨?_, rfl⟩
    revert hr
    unfold decode
    split <;> simp_all

/-- Everything a step can do: it is one turn, of the host or of the block. -/
theorem step_cases (s : State) :
    (s.turns = [] ∧ step s = blockTurn s) ∨
    (∃ rest, s.turns = .block :: rest ∧ step s = blockTurn { s with turns := rest }) ∨
    (∃ op rest, s.turns = .host op :: rest ∧ step s = hostTurn Config.bounds op { s with turns := rest }) := by
  unfold step takeTurn
  split
  · exact .inl ⟨‹_›, rfl⟩
  · exact .inr (.inl ⟨_, ‹_›, rfl⟩)
  · exact .inr (.inr ⟨_, _, ‹_›, rfl⟩)

theorem step_block {s : State} {rest : List Turn} (h : s.turns = .block :: rest) :
    step s = blockTurn { s with turns := rest } := by
  simp only [step, takeTurn, h]

theorem step_host {s : State} {op : HostOp} {rest : List Turn} (h : s.turns = .host op :: rest) :
    step s = hostTurn Config.bounds op { s with turns := rest } := by
  simp only [step, takeTurn, h]

theorem step_alone {s : State} (h : s.turns = []) : step s = blockTurn s := by
  simp only [step, takeTurn, h]

/-! ### Runs -/

theorem run_zero (s : State) : run 0 s = .next s := rfl

theorem run_succ {k : Nat} {s t : State} (h : step s = .next t) : run (k + 1) s = run k t := by
  simp only [run, h]

/-- A run of `j + k` steps is a run of `k` steps from where the first `j` lead. -/
theorem run_add {k : Nat} : ∀ {j : Nat} {s t : State}, run j s = .next t → run (j + k) s = run k t
  | 0, _, _, h => by cases h; rw [Nat.zero_add]
  | j + 1, s, t, h => by
    rw [show j + 1 + k = (j + k) + 1 by omega]
    cases hs : step s with
    | next u =>
      rw [run_succ hs] at h ⊢
      exact run_add h
    | fault e => simp [run, hs] at h
    | refused e => simp [run, hs] at h

/-- `run` is the host's run of `Sys2Proof.core`. -/
theorem run_eq_core_run (k : Nat) (s : State) : run k s = Sys2Proof.core.run k s := by
  induction k generalizing s with
  | zero => rfl
  | succ k ih =>
    simp only [run, Host.Core.run, Sys2Proof.core]
    cases step s with
    | next t => exact ih t
    | fault e => rfl
    | refused e => rfl

end Sys2Proof.Machine
end

