-- ==== Sys2Proof/Laws/Bytes.lean ====
section
/-! SUPPORT. Laws/Bytes.lean: the numbers behind the byte forms: what a group's word and a word's lane are as naturals and as integers, one
lemma per form. -/

namespace Sys2Proof.Machine

theorem append_toNat {n m : Nat} (a : BitVec n) (b : BitVec m) : (a ++ b).toNat = a.toNat * 2 ^ m + b.toNat := by
  rw [BitVec.toNat_append, ← Nat.shiftLeft_add_eq_or_of_lt b.isLt, Nat.shiftLeft_eq]

theorem leWord_toNat (b0 b1 b2 b3 : Byte) :
    (leWord b0 b1 b2 b3).toNat = b0.toNat + 256 * b1.toNat + 65536 * b2.toNat + 16777216 * b3.toNat := by
  unfold leWord
  have h1 := append_toNat b1 b0
  have h2 := append_toNat b2 (b1 ++ b0)
  have h3 := append_toNat b3 (b2 ++ (b1 ++ b0))
  omega

@[simp] theorem leValue_nil : leValue [] = 0 := rfl

@[simp] theorem leValue_cons (b : Byte) (g : List Byte) : leValue (b :: g) = b.toNat + 256 * leValue g := rfl

theorem fillByte_toNat (b : Byte) : (fillByte b).toNat = if 128 ≤ b.toNat then 0xFF else 0 := by
  revert b; decide

theorem lane_toNat (v : Word) (k : Nat) : (v.extractLsb' k 8).toNat = v.toNat / 2 ^ k % 256 := by
  rw [BitVec.extractLsb'_toNat, Nat.shiftRight_eq_div_pow]

/-- The signed and the unsigned reading of a cell agree modulo a power of two. -/
theorem toInt_emod (v : Word) (m : Nat) (hm : m ∣ 2 ^ 32) : v.toInt % m = ((v.toNat % m : Nat) : Int) := by
  rw [BitVec.toInt_eq_toNat_cond]
  obtain ⟨c, hc⟩ := hm
  split
  · simp
  · have : ((2 ^ 32 : Nat) : Int) = m * c := by exact_mod_cast hc
    rw [this, Int.sub_mul_emod_self_left]
    simp

theorem unpack1_toInt (b : Byte) : (unpack1 b).toInt = (b.toNat : Int) - 128 := by
  have := b.isLt
  simp only [unpack1, BitVec.toInt_ofInt]
  rw [Int.bmod_eq_of_le] <;> omega

theorem unpack2_toInt (b0 b1 : Byte) : (unpack2 b0 b1).toInt =
    if b0.toNat + 256 * b1.toNat < 32768 then ((b0.toNat + 256 * b1.toNat : Nat) : Int)
    else ((b0.toNat + 256 * b1.toNat : Nat) : Int) - 65536 := by
  have := b0.isLt
  have := b1.isLt
  simp only [unpack2]
  rw [BitVec.toInt_signExtend_of_le (by omega), BitVec.toInt_eq_toNat_cond, append_toNat]
  split <;> split <;> omega

theorem unpack3_toInt (b0 b1 b2 : Byte) : (unpack3 b0 b1 b2).toInt =
    if b0.toNat + 256 * b1.toNat + 65536 * b2.toNat < 8388608 then ((b0.toNat + 256 * b1.toNat + 65536 * b2.toNat : Nat) : Int)
    else ((b0.toNat + 256 * b1.toNat + 65536 * b2.toNat : Nat) : Int) - 16777216 := by
  have := b0.isLt
  have := b1.isLt
  have := b2.isLt
  rw [BitVec.toInt_eq_toNat_cond, unpack3, leWord_toNat, fillByte_toNat]
  split_ifs <;> omega

theorem unpack4_toInt (b0 b1 b2 b3 : Byte) : (unpack4 b0 b1 b2 b3).toInt =
    if b0.toNat + 256 * b1.toNat + 65536 * b2.toNat + 16777216 * b3.toNat < 2147483648 then
      ((b0.toNat + 256 * b1.toNat + 65536 * b2.toNat + 16777216 * b3.toNat : Nat) : Int)
    else ((b0.toNat + 256 * b1.toNat + 65536 * b2.toNat + 16777216 * b3.toNat : Nat) : Int) - 4294967296 := by
  have := b0.isLt
  have := b1.isLt
  have := b2.isLt
  have := b3.isLt
  rw [BitVec.toInt_eq_toNat_cond, unpack4, leWord_toNat]
  split_ifs <;> omega

end Sys2Proof.Machine
end

