-- ==== Sys2Proof/Laws/Host.lean ====
section
/-! SUPPORT. Laws/Host.lean: what a turn of the host and a turn of the block keep, and what the host's file operations do. -/

namespace Sys2Proof.Machine

/-! ### The host's turns -/

theorem sameBlock_refl (s : State) : SameBlock s s := ⟨rfl, rfl, rfl, rfl, rfl, rfl, rfl⟩

theorem sameBlock_trans {a b c : State} (h : SameBlock a b) (k : SameBlock b c) : SameBlock a c := by
  obtain ⟨h1, h2, h3, h4, h5, h6, h7⟩ := h
  obtain ⟨k1, k2, k3, k4, k5, k6, k7⟩ := k
  exact ⟨h1.trans k1, h2.trans k2, h3.trans k3, h4.trans k4, h5.trans k5, h6.trans k6, h7.trans k7⟩

theorem busyReadReg_sameBlock (r : Reg) (s : State) : SameBlock (busyReadReg r s) s := by
  cases r <;> exact ⟨rfl, rfl, rfl, rfl, rfl, rfl, rfl⟩

theorem busyReadReg_turns (r : Reg) (s : State) : (busyReadReg r s).turns = s.turns := by cases r <;> rfl

/-- While `BUSY`, no host operation but `RESET` touches the block. -/
theorem hostBusy_sameBlock {op : HostOp} {s t : State} (h : hostBusy op s = .next t) (hr : op ≠ .reset) : SameBlock t s := by
  cases op <;> simp only [hostBusy] at h <;> cases h
  all_goals first
    | exact absurd rfl hr
    | exact busyReadReg_sameBlock _ _
    | exact ⟨rfl, rfl, rfl, rfl, rfl, rfl, rfl⟩

/-- While not `BUSY`, the host operations other than `ISSUE` and `RESET` leave the command, the report and the index alone. -/
theorem hostReady_keeps {op : HostOp} {s t : State} (h : hostReady op s = .next t) (hi : ∀ c, op ≠ .issue c)
    (hr : op ≠ .reset) :
    t.cmd = s.cmd ∧ t.status = s.status ∧ t.err = s.err ∧ t.idx = s.idx ∧
      ((∀ n, op ≠ .setFc n) → t.frameCount = s.frameCount) := by
  cases op <;> simp only [hostReady] at h <;> first | cases h | skip
  all_goals first | exact absurd rfl (hi _) | exact absurd rfl hr | skip
  all_goals refine ⟨rfl, rfl, rfl, rfl, fun h' => ?_⟩
  all_goals first | rfl | exact absurd rfl (h' _)

theorem hostTurn_rdStatus (s : State) :
    hostTurn Config.bounds .rdStatus s = .next (reply (.status s.status s.err) s) := by
  by_cases hs : s.status = .busy
  · rw [hostTurn_busy hs]; rfl
  · rw [hostTurn_ready hs]; rfl

/-- What every turn of the block keeps: the host's registers, the model's own fields, the input buffer, and the output so far. -/
theorem blockTurn_keeps {s t : State} (h : blockTurn s = .next t) :
    t.cmd = s.cmd ∧ t.frameCount = s.frameCount ∧ t.err = s.err ∧ t.turns = s.turns ∧ t.replies = s.replies ∧
      t.freeReads = s.freeReads ∧
      (dirField s.cmd = .decode → t.raw = s.raw ∧ ∃ more, t.smp = s.smp ++ more) ∧
      (dirField s.cmd = .encode → t.smp = s.smp ∧ ∃ more, t.raw = s.raw ++ more) := by
  rcases blockTurn_next h with ⟨hs, rfl⟩ | ⟨hs, w, hc, h⟩ | ⟨hs, w, hc, h⟩
  · exact ⟨rfl, rfl, rfl, rfl, rfl, rfl, fun _ => ⟨rfl, [], by simp⟩, fun _ => ⟨rfl, [], by simp⟩⟩
  · rcases decodeBlockStep_next h with ⟨_, _, _, _, _, _, rfl⟩ | ⟨_, rfl⟩
    · exact ⟨rfl, rfl, rfl, rfl, rfl, rfl, fun _ => ⟨rfl, _, rfl⟩, fun h => by simp [hc] at h⟩
    · exact ⟨rfl, rfl, rfl, rfl, rfl, rfl, fun _ => ⟨rfl, [], by simp⟩, fun _ => ⟨rfl, [], by simp⟩⟩
  · rcases encodeBlockStep_next h with ⟨_, _, _, _, rfl⟩ | ⟨_, rfl⟩
    · exact ⟨rfl, rfl, rfl, rfl, rfl, rfl, fun h => by simp [hc] at h, fun _ => ⟨rfl, _, rfl⟩⟩
    · exact ⟨rfl, rfl, rfl, rfl, rfl, rfl, fun _ => ⟨rfl, [], by simp⟩, fun _ => ⟨rfl, [], by simp⟩⟩

/-- Every command word either spells no operation or is the word of a direction and a width. -/
theorem commandWord_cases (c : BitVec 4) : Width.ofField (widthField c) = none ∨ ∃ d w, c = commandWord d w := by
  cases h : decode c with
  | ok i => exact .inr ⟨i.dir, i.width, (decode_ok_iff _ _).mp h⟩
  | error e =>
    left
    revert h
    unfold decode
    split <;> simp_all

/-! ### The file system and the handle -/

theorem lookupFile_setFile_same (path : String) (e : FileEntry) (fs : List (String × FileEntry)) :
    lookupFile path (setFile path (some e) fs) = some e := by
  simp [lookupFile, setFile]

theorem lookupFile_filter {path other : String} (h : other ≠ path) (fs : List (String × FileEntry)) :
    lookupFile other (fs.filter (fun f => f.1 != path)) = lookupFile other fs := by
  simp only [lookupFile]
  induction fs with
  | nil => rfl
  | cons f fs ih =>
    obtain ⟨k, v⟩ := f
    by_cases hk : k = path
    · subst hk
      have : (other == k) = false := by simpa using h
      simp [List.lookup_cons, this, ih]
    · simp [hk, List.lookup_cons, ih]

theorem lookupFile_setFile_other {path other : String} (h : other ≠ path) (e : Option FileEntry)
    (fs : List (String × FileEntry)) : lookupFile other (setFile path e fs) = lookupFile other fs := by
  cases e with
  | none => exact lookupFile_filter h fs
  | some e =>
    have hn : (other == path) = false := by simpa using h
    have hf := lookupFile_filter h fs
    simp only [lookupFile] at hf ⊢
    simp only [setFile, List.lookup_cons, hn]
    exact hf

/-- The `finally` releases the handle and touches neither the files nor the block. -/
theorem finish_keeps {α : Type} (io : IoEvents) (a : Answer α) (wd : World) :
    (finish io a wd).2.handle = none ∧ (finish io a wd).2.files = wd.files ∧ (finish io a wd).2.block = wd.block := by
  unfold finish
  split
  · exact ⟨rfl, rfl, rfl⟩
  · split <;> exact ⟨rfl, rfl, rfl⟩

end Sys2Proof.Machine
end

