-- ==== Sys2Proof/Laws/PerInstr.lean ====
section
/-! SUPPORT. Laws/PerInstr.lean: what holds of every instruction as syntax, one lemma per constructor. -/

namespace Sys2Proof.Laws.OpcodeRow

/-- The word of the instruction is the one its row of the opcode table requires, no other row matches it, and its two fields are the
direction and the number of bytes per sample of the instruction (R56, R59). -/
def Statement (i : Sys2Proof.Instr) : Prop :=
  Sys2Proof.opcodeTable.filter (fun r => r.hits (Sys2Proof.encode i)) =
    [{ instr := i, mask := 0xF#4, bits := Sys2Proof.encode i }] ∧
  Sys2Proof.dirField (Sys2Proof.encode i) = i.dir ∧
  (Sys2Proof.widthField (Sys2Proof.encode i)).toNat = i.width.bytes

theorem dec1 : Statement .dec1 := ⟨rfl, rfl, rfl⟩

theorem dec2 : Statement .dec2 := ⟨rfl, rfl, rfl⟩

theorem dec3 : Statement .dec3 := ⟨rfl, rfl, rfl⟩

theorem dec4 : Statement .dec4 := ⟨rfl, rfl, rfl⟩

theorem enc1 : Statement .enc1 := ⟨rfl, rfl, rfl⟩

theorem enc2 : Statement .enc2 := ⟨rfl, rfl, rfl⟩

theorem enc3 : Statement .enc3 := ⟨rfl, rfl, rfl⟩

theorem enc4 : Statement .enc4 := ⟨rfl, rfl, rfl⟩

end Sys2Proof.Laws.OpcodeRow
end

