-- ==== Sys2Proof/Tests/Slice0.lean ====
section
/-! SUPPORT. Tests/Slice0.lean: the model's own tests, each on one step of a small state, with results worked out in spec/95_test_vectors.md or
by hand from the rule named, and for every statement a named witness that its hypotheses can be met together. -/

namespace Sys2Proof.Tests

open Sys2Proof Sys2Proof.Machine

/-! ### Small states -/

/-- A block at rest: reset, with both buffers and the frame count set. -/
def ready (raw : List Byte) (fc : Nat) (smp : List Word) : State :=
  { State.reset with raw := raw, frameCount := fc, smp := smp }

/-- A block in flight. -/
def flight (c : BitVec 4) (raw : List Byte) (fc : Nat) (smp : List Word) (idx : Nat) : State :=
  { State.reset with cmd := c, raw := raw, frameCount := fc, smp := smp, idx := idx, status := .busy }

/-- A block whose last command was refused. -/
def failed (c : BitVec 4) (raw : List Byte) (fc : Nat) (e : Err) : State :=
  { State.reset with cmd := c, raw := raw, frameCount := fc, status := .error, err := e }

/-- The same block with turns to come. -/
def withTurns (s : State) (turns : List Turn) : State := { s with turns := turns }

/-- The outcome is a next state with a property. -/
def nextIs (r : Result) (p : State → Bool) : Bool :=
  match r with
  | .next t => p t
  | .fault _ => false
  | .refused _ => false

/-- The decode of program P1 (95_test_vectors.md section 3.1) after its second frame step. -/
def p1 : State :=
  flight 0x3#4 [0xFF, 0xFF, 0xFF, 0x00, 0x00, 0x80, 0xFF, 0xFF, 0x7F, 0x01, 0x00, 0x00] 4 [0xFFFFFFFF#32, 0xFF800000#32] 2

/-- An encode at width 2 after its first frame step (program P2, section 3.2: 256, then -1). -/
def p2 : State := flight 0xA#4 [0x00, 0x01] 7 [0x00000100#32, 0xFFFFFFFF#32] 1

/-- The decode of vector B1: `DEC.2` admitted with two frames, one of them converted. -/
def b1 : State := flight 0x2#4 [0x01, 0x00, 0xFF, 0xFF] 2 [0x00000001#32] 1

/-- A container of eight frames at width 2 (95_test_vectors.md section 2.10: `T` = 8). -/
def eight : Container :=
  { channels := 1, sampleWidth := 2, frameRate := 8000, frameCount := 8,
    payload := [0x00, 0, 0x01, 0, 0x02, 0, 0x03, 0, 0x04, 0, 0x05, 0, 0x06, 0, 0x07, 0] }

def stereo : Container := { channels := 2, sampleWidth := 1, frameRate := 8000, frameCount := 1, payload := [0x80, 0x80] }

/-- A world that holds one container. -/
def world (c : Container) : World :=
  { block := State.reset, files := [("a", .container c)], handle := none, freeFiles := 0 }

/-! ### WellFormed: each check refuses an ill-formed term -/

theorem test_supportedWidth_refuses : supportedWidth 0#3 = false ∧ supportedWidth 5#3 = false ∧ supportedWidth 6#3 = false ∧
    supportedWidth 7#3 = false := by decide

theorem test_bounds_refuse_small_raw :
    Bounds.wf { fcBits := none, rawCap := some 7, smpCap := some 2 } = false ∧
    Bounds.wf { fcBits := none, rawCap := some 8, smpCap := some 2 } = true ∧
    Bounds.wf { fcBits := none, rawCap := some 8, smpCap := none } = false := by decide

theorem test_operands_refused_over_bound :
    HostOp.fits { fcBits := some 2, rawCap := some 8, smpCap := some 2 } (.setFc 4) = false ∧
    HostOp.fits { fcBits := some 2, rawCap := some 8, smpCap := some 2 } (.setFc 3) = true ∧
    HostOp.fits { fcBits := some 2, rawCap := some 1, smpCap := some 0 } (.loadRaw [1, 2]) = false ∧
    HostOp.fits { fcBits := some 2, rawCap := some 1, smpCap := some 0 } (.loadSmp [1]) = false ∧
    HostOp.fits { fcBits := some 2, rawCap := none, smpCap := none } (.loadSmp [1, 2, 3, 4]) = false ∧
    HostOp.fits { fcBits := some 2, rawCap := none, smpCap := none } (.loadSmp [1, 2, 3]) = true := by decide

theorem test_line_refused_over_bound :
    HostLine.wf { fcBits := some 2, rawCap := none, smpCap := none } (.op (.setFc 4)) = false := by decide

theorem test_container_refuses_short_payload : Container.wf { eight with frameCount := 9 } = false := by decide

theorem test_sampleFits_refuses : sampleFits 2147483648 = false ∧ sampleFits (-2147483649) = false ∧
    sampleFits 2147483647 = true ∧ sampleFits (-2147483648) = true := by decide

/-! ### Decode: the words of the opcode map (R59), bit by bit, and the rejections (R60) -/

theorem test_decode_dec1 : decode 0b0001#4 = .ok .dec1 := by rfl
theorem test_decode_dec2 : decode 0b0010#4 = .ok .dec2 := by rfl
theorem test_decode_dec3 : decode 0b0011#4 = .ok .dec3 := by rfl
theorem test_decode_dec4 : decode 0b0100#4 = .ok .dec4 := by rfl
theorem test_decode_enc1 : decode 0b1001#4 = .ok .enc1 := by rfl
theorem test_decode_enc2 : decode 0b1010#4 = .ok .enc2 := by rfl
theorem test_decode_enc3 : decode 0b1011#4 = .ok .enc3 := by rfl
theorem test_decode_enc4 : decode 0b1100#4 = .ok .enc4 := by rfl

theorem test_decode_rejects_by_name : decode 0b1101#4 = .error (.unsupportedWidth .encode 5#3) ∧
    decode 0b0000#4 = .error (.unsupportedWidth .decode 0#3) ∧ decodeByte 0x11#8 = .error (.notACommandWord 17) := by
  refine ⟨rfl, rfl, rfl⟩

theorem test_decodeTableWord : decodeTableWord 4 0xB = some .enc3 ∧ decodeTableWord 8 0x1 = some .dec1 ∧ decodeTableWord 8 0x5 = none ∧
    decodeTableWord 8 0x13 = none := by decide

/-- The table of R59: no word hits two rows, and a row is hit by the word that decodes to its operation. -/
theorem test_opcodeTable_no_overlap :
    List.Pairwise (fun a b : OpcodeRow => ∀ c : BitVec 4, (a.hits c && b.hits c) = false) opcodeTable := by decide

theorem test_opcodeTable_agrees_with_decode :
    ∀ r, r ∈ opcodeTable → ∀ c : BitVec 4, r.hits c = (match decode c with | .ok i => i == r.instr | .error _ => false) := by decide

theorem test_withFetchWord_runs : nextIs (step (State.reset.withFetchWord 8 0xC)) (fun t => t.cmd == 0xC#4 && t.status == .busy) = true := by
  decide

/-! ### The operations: one frame step each (vectors of 95_test_vectors.md section 2), and admission -/

/-- Vector D1.7. -/
theorem test_dec1_frame : nextIs (exec .dec1 (flight 0x1#4 [0x48] 1 [] 0)) (fun t => t.smp == [0xFFFFFFC8#32] && t.idx == 1) = true := by
  decide

/-- Vector D2.7, then a negative neighbour (D2.5). -/
theorem test_dec2_frame : nextIs (exec .dec2 (flight 0x2#4 [0x34, 0x12, 0x00, 0x80] 2 [0x00001234#32] 1))
    (fun t => t.smp == [0x00001234#32, 0xFFFF8000#32]) = true := by decide

/-- Vectors D3.10 and D3.13: the sign is bit 7 of the third byte alone. -/
theorem test_dec3_frame : nextIs (exec .dec3 (flight 0x3#4 [0xFF, 0xFF, 0x80] 1 [] 0)) (fun t => t.smp == [0xFF80FFFF#32]) = true ∧
    nextIs (exec .dec3 (flight 0x3#4 [0x80, 0x00, 0x00] 1 [] 0)) (fun t => t.smp == [0x00000080#32]) = true := by decide

/-- Vector D4.10. -/
theorem test_dec4_frame : nextIs (exec .dec4 (flight 0x4#4 [0x04, 0x03, 0x02, 0x01] 1 [] 0)) (fun t => t.smp == [0x01020304#32]) = true := by
  decide

/-- Vectors E1.8 and E1.11. -/
theorem test_enc1_frame : nextIs (exec .enc1 (flight 0x9#4 [] 0 [0x000000C8#32] 0)) (fun t => t.raw == [0x48]) = true ∧
    nextIs (exec .enc1 (flight 0x9#4 [] 0 [0x7FFFFFFF#32] 0)) (fun t => t.raw == [0x7F]) = true := by decide

/-- Vector E2.10. -/
theorem test_enc2_frame : nextIs (exec .enc2 (flight 0xA#4 [] 0 [0x00009C40#32] 0)) (fun t => t.raw == [0x40, 0x9C] && t.idx == 1) = true := by
  decide

/-- Vector E3.8. -/
theorem test_enc3_frame : nextIs (exec .enc3 (flight 0xB#4 [] 0 [0x12345678#32] 0)) (fun t => t.raw == [0x78, 0x56, 0x34]) = true := by
  decide

/-- Vector E4.9. -/
theorem test_enc4_frame : nextIs (exec .enc4 (flight 0xC#4 [] 0 [0x01020304#32] 0)) (fun t => t.raw == [0x04, 0x03, 0x02, 0x01]) = true := by
  decide

/-- Vector A11: malformed, nothing but the command and the report written. -/
theorem test_dec2_malformed : nextIs (exec .dec2 (ready [1, 2, 3] 1 [7])) (fun t => t == { failed 0x2#4 [1, 2, 3] 1 .malformedInput with smp := [7] }) =
    true := by decide

/-- Vector A22: an encode reads neither `RAW` nor `FRAMECOUNT`; `RAW` is emptied. -/
theorem test_enc3_ignores_frameCount : nextIs (exec .enc3 (ready [1, 2, 3] 9 [])) (fun t => t == flight 0xB#4 [] 9 [] 0) = true := by decide

/-- Vector A21: unsupported and malformed at once reports the width. -/
theorem test_priority : nextIs (hostTurn Config.bounds (.issue 0x5#4) (ready [1, 2, 3] 9 []))
    (fun t => t == failed 0x5#4 [1, 2, 3] 9 .unsupportedConfiguration) = true := by decide

/-- Vectors B1 to B4 and B7. -/
theorem test_busy : nextIs (hostTurn Config.bounds (.loadRaw [0xAA]) b1) (fun t => t == b1) = true ∧
    nextIs (hostTurn Config.bounds (.setFc 5) b1) (fun t => t == b1) = true ∧
    nextIs (hostTurn Config.bounds (.issue 0xC#4) b1) (fun t => t == b1) = true ∧
    nextIs (hostTurn Config.bounds (.loadSmp [7]) b1) (fun t => t == b1) = true ∧
    nextIs (hostTurn Config.bounds .reset b1) (fun t => t == State.reset) = true := by decide

/-- `DECA.3` on seven bytes (R64): the count is 2 and the decode is malformed. -/
theorem test_deca : nextIs (performLine (.deca 3#3) (ready [1, 2, 3, 4, 5, 6, 7] 0 [])) (fun t => t.frameCount == 2 && t.err == .malformedInput) =
    true := by decide

/-- Vectors K10 to K12 and negative arguments (U5) lie outside the container, K1, K2, K7 and K9 inside it. -/
theorem test_rangeOutside : rangeOutside (-1) 3 8 = true ∧ rangeOutside 0 (-1) 8 = true ∧ rangeOutside 5 2 8 = true ∧ rangeOutside 2 9 8 = true ∧ rangeOutside 9 0 8 = true ∧ rangeOutside 0 0 8 = false ∧
    rangeOutside 2 5 8 = false ∧ rangeOutside 7 0 8 = false ∧ rangeOutside 7 7 8 = false := by decide

/-- The request counts of vectors K1, K2, K3, K8 and K10. -/
theorem test_frameRequest : frameRequest 0 0 8 = 8 ∧ frameRequest 2 5 8 = 4 ∧ frameRequest 6 0 8 = 2 ∧ frameRequest 8 0 8 = 0 ∧
    frameRequest 5 2 8 = -2 := by decide

/-! ### Witnesses: for every statement with hypotheses, a state and operands that meet them -/

theorem p1_inv : Inv p1 where
  err_iff := by decide
  idle := by decide
  busy := fun _ => ⟨.three, .inl (by unfold DecodeInFlight; decide)⟩
  done := by intro h; cases h
  malformed := by intro h; cases h
  unsupported := by intro h; cases h

theorem p2_inv : Inv p2 where
  err_iff := by decide
  idle := by decide
  busy := fun _ => ⟨.two, .inr (by unfold EncodeInFlight; decide)⟩
  done := by intro h; cases h
  malformed := by intro h; cases h
  unsupported := by intro h; cases h

/-- A decode with every frame converted, waiting for `COMPLETE`. -/
def p1End : State := flight 0x1#4 [0x00, 0xFF] 2 [0xFFFFFF80#32, 0x0000007F#32] 2

theorem p1End_inv : Inv p1End where
  err_iff := by decide
  idle := by decide
  busy := fun _ => ⟨.one, .inl (by unfold DecodeInFlight; decide)⟩
  done := by intro h; cases h
  malformed := by intro h; cases h
  unsupported := by intro h; cases h

/-- An encode with every frame converted. -/
def p2End : State := flight 0xA#4 [0x00, 0x01] 0 [0x00000100#32] 1

theorem p2End_inv : Inv p2End where
  err_iff := by decide
  idle := by decide
  busy := fun _ => ⟨.two, .inr (by unfold EncodeInFlight; decide)⟩
  done := by intro h; cases h
  malformed := by intro h; cases h
  unsupported := by intro h; cases h

/-- A transaction just admitted, with frames to convert. -/
def b0 : State := flight 0x2#4 [0x01, 0x00, 0xFF, 0xFF] 2 [] 0

theorem b0_inv : Inv b0 where
  err_iff := by decide
  idle := by decide
  busy := fun _ => ⟨.two, .inl (by unfold DecodeInFlight; decide)⟩
  done := by intro h; cases h
  malformed := by intro h; cases h
  unsupported := by intro h; cases h

theorem b1_inv : Inv b1 where
  err_iff := by decide
  idle := by decide
  busy := fun _ => ⟨.two, .inl (by unfold DecodeInFlight; decide)⟩
  done := by intro h; cases h
  malformed := by intro h; cases h
  unsupported := by intro h; cases h

theorem witness_DecodeOfEncode : Instr.dec1.wf = true ∧ Instr.enc4.wf = true := by decide

theorem witness_StepRunsTheIssuedCommand :
    (withTurns (ready [] 0 []) [.host (.issue 0x9#4)]).turns = [.host (.issue 0x9#4)] ∧ (ready [] 0 []).status ≠ .busy ∧
    decode 0x9#4 = .ok .enc1 := by refine ⟨rfl, by decide, rfl⟩

theorem witness_StepRunsTheCommandInFlight : p1.status = .busy ∧ decode p1.cmd = .ok .dec3 ∧ p1.turns = [] ∧
    (withTurns p1 [.block]).turns = [.block] := by refine ⟨rfl, rfl, rfl, rfl⟩

/-- `DEC.1`: admitted with zero and with two frames, refused with one byte too many, and the last frame. -/
theorem witness_Dec1 : (ready [] 0 []).raw.length = (ready [] 0 []).frameCount ∧ (ready [1, 2] 2 []).raw.length = (ready [1, 2] 2 []).frameCount ∧
    (ready [1, 2] 1 []).raw.length ≠ (ready [1, 2] 1 []).frameCount ∧ (ready [1, 2] 1 []).status ≠ .busy ∧
    (let s := flight 0x1#4 [1, 2] 2 [0xFFFFFF81#32] 1
     s.status = .busy ∧ s.cmd = 0x1#4 ∧ s.idx < s.frameCount ∧ s.smp.length = s.idx ∧ s.raw[s.idx]? = some 0x02#8) := by decide

theorem witness_Dec2 : (ready [1, 2] 1 []).raw.length = 2 * (ready [1, 2] 1 []).frameCount ∧
    (ready [1, 2, 3] 1 []).raw.length ≠ 2 * (ready [1, 2, 3] 1 []).frameCount ∧
    b1.status = .busy ∧ b1.cmd = 0x2#4 ∧ b1.idx < b1.frameCount ∧ b1.smp.length = b1.idx ∧
    b1.raw[2 * b1.idx]? = some 0xFF#8 ∧ b1.raw[2 * b1.idx + 1]? = some 0xFF#8 := by decide

theorem witness_Dec3 : (ready [1, 2, 3] 1 []).raw.length = 3 * (ready [1, 2, 3] 1 []).frameCount ∧
    (ready [1, 2] 1 []).raw.length ≠ 3 * (ready [1, 2] 1 []).frameCount ∧
    p1.status = .busy ∧ p1.cmd = 0x3#4 ∧ p1.idx < p1.frameCount ∧ p1.smp.length = p1.idx ∧
    p1.raw[3 * p1.idx]? = some 0xFF#8 ∧ p1.raw[3 * p1.idx + 1]? = some 0xFF#8 ∧ p1.raw[3 * p1.idx + 2]? = some 0x7F#8 := by decide

theorem witness_Dec4 : (ready [1, 2, 3, 4] 1 []).raw.length = 4 * (ready [1, 2, 3, 4] 1 []).frameCount ∧
    (ready [1, 2, 3, 4] 2 []).raw.length ≠ 4 * (ready [1, 2, 3, 4] 2 []).frameCount ∧
    (let s := flight 0x4#4 [1, 2, 3, 4] 1 [] 0
     s.status = .busy ∧ s.cmd = 0x4#4 ∧ s.idx < s.frameCount ∧ s.smp.length = s.idx ∧ s.raw[4 * s.idx]? = some 1#8 ∧
     s.raw[4 * s.idx + 1]? = some 2#8 ∧ s.raw[4 * s.idx + 2]? = some 3#8 ∧ s.raw[4 * s.idx + 3]? = some 4#8) := by decide

theorem witness_Enc1 : (ready [] 0 [5]).status ≠ .busy ∧
    (let s := flight 0x9#4 [0x80] 0 [0, 5] 1
     s.status = .busy ∧ s.cmd = 0x9#4 ∧ s.smp[s.idx]? = some 5#32 ∧ s.raw.length = s.idx) := by decide

theorem witness_Enc2 : (ready [] 0 [5]).status ≠ .busy ∧ p2.status = .busy ∧ p2.cmd = 0xA#4 ∧ p2.smp[p2.idx]? = some 0xFFFFFFFF#32 ∧
    p2.raw.length = 2 * p2.idx := by decide

theorem witness_Enc3 : (ready [] 0 [5]).status ≠ .busy ∧
    (let s := flight 0xB#4 [1, 0, 0] 0 [1, 5] 1
     s.status = .busy ∧ s.cmd = 0xB#4 ∧ s.smp[s.idx]? = some 5#32 ∧ s.raw.length = 3 * s.idx) := by decide

theorem witness_Enc4 : (ready [] 0 [5]).status ≠ .busy ∧
    (let s := flight 0xC#4 [1, 0, 0, 0] 0 [1, 5] 1
     s.status = .busy ∧ s.cmd = 0xC#4 ∧ s.smp[s.idx]? = some 5#32 ∧ s.raw.length = 4 * s.idx) := by decide

theorem witness_Completion : p1End.status = .busy ∧ p1End.cmd = encode .dec1 ∧ p1End.idx = frames p1End ∧ Inv p1End ∧
    p2End.status = .busy ∧ p2End.cmd = encode .enc2 ∧ p2End.idx = frames p2End ∧ Inv p2End :=
  ⟨rfl, rfl, rfl, p1End_inv, rfl, rfl, rfl, p2End_inv⟩

theorem witness_DecodeFrame : p1.status = .busy ∧ p1.cmd = commandWord .decode .three ∧ p1.idx < p1.frameCount ∧
    p1.raw.length = p1.frameCount * Width.three.bytes ∧ p1.smp.length = p1.idx := by decide

theorem witness_EncodeFrame : p2.status = .busy ∧ p2.cmd = commandWord .encode .two ∧ p2.idx < p2.smp.length ∧
    p2.raw.length = p2.idx * Width.two.bytes := by decide

/-- The frame of a decode: in flight with an earlier cell kept, admitted, and refused. -/
theorem witness_DecodeFamilyFrame :
    exec .dec3 p1 = .next { p1 with smp := [0xFFFFFFFF#32, 0xFF800000#32, 0x007FFFFF#32], idx := 3 } ∧ (1 : Nat) ≠ p1.idx ∧
    exec .dec1 (ready [] 0 []) = .next (flight 0x1#4 [] 0 [] 0) ∧
    exec .dec1 (ready [] 1 []) = .next (failed 0x1#4 [] 1 .malformedInput) := by refine ⟨rfl, by decide, rfl, rfl⟩

/-- The frame of an encode: bytes 0 and 1 lie below the stored group, byte 4 at its end; and admitted. -/
theorem witness_EncodeFamilyFrame : exec .enc2 p2 = .next { p2 with raw := [0x00, 0x01, 0xFF, 0xFF], idx := 2 } ∧
    (1 < p2.idx * Instr.enc2.width.bytes) ∧ p2.idx * Instr.enc2.width.bytes + Instr.enc2.width.bytes ≤ 4 ∧
    exec .enc1 (ready [1] 0 []) = .next (flight 0x9#4 [] 0 [] 0) := by refine ⟨rfl, by decide, by decide, rfl⟩

/-- Admission: a `BUSY` block, and one word for each of the four ends. -/
theorem witness_IssueIsAdmitted : b1.status = .busy ∧ (ready [1, 2, 3] 1 []).status ≠ .busy ∧
    (BitVec.extractLsb' 0 3 0xD#4).toNat = 5 ∧ (0x2#4).getLsbD 3 = false ∧
    (ready [1, 2, 3] 1 []).raw.length ≠ (ready [1, 2, 3] 1 []).frameCount * (BitVec.extractLsb' 0 3 0x2#4).toNat ∧
    (ready [1, 2, 3] 1 []).raw.length = (ready [1, 2, 3] 1 []).frameCount * (BitVec.extractLsb' 0 3 0x3#4).toNat ∧
    (0x9#4).getLsbD 3 = true := by decide

theorem witness_UnsupportedWidths : 0x8#4 ∈ [0x0#4, 0x5#4, 0x6#4, 0x7#4, 0x8#4, 0xD#4, 0xE#4, 0xF#4] ∧ State.reset.status ≠ .busy ∧ ((-1 : Int) < 0) ∧ ((7 : Int) < 8) := by decide

theorem witness_ErrorEntry : hostTurn Config.bounds (.issue 0x1#4) (ready [] 1 []) = .next (failed 0x1#4 [] 1 .malformedInput) ∧
    hostTurn Config.bounds (.issue 0x0#4) (ready [] 1 []) = .next (failed 0x0#4 [] 1 .unsupportedConfiguration) := by
  refine ⟨rfl, rfl⟩

/-- An error standing through a load; repaired by an `ISSUE`; replaced by another error. -/
theorem witness_ErrorStands : (failed 0x1#4 [] 1 .malformedInput).status = .error ∧ (∀ c, HostOp.setFc 0 ≠ .issue c) ∧
    HostOp.setFc 0 ≠ .reset ∧ hostTurn Config.bounds (.setFc 0) (failed 0x1#4 [] 1 .malformedInput) = .next (failed 0x1#4 [] 0 .malformedInput) ∧
    (failed 0x1#4 [] 0 .malformedInput).raw.length = (failed 0x1#4 [] 0 .malformedInput).frameCount * Instr.dec1.width.bytes ∧
    hostTurn Config.bounds (.issue 0x7#4) (failed 0x1#4 [] 1 .malformedInput) = .next (failed 0x7#4 [] 1 .unsupportedConfiguration) := by
  refine ⟨rfl, ?_, by decide, rfl, rfl, rfl⟩
  intro c h
  cases h

/-- A group of each kind for the value clause of R57. -/
theorem witness_DecodedCells : Width.two ≠ .one ∧ [0x00#8, 0x80#8].length = Width.two.bytes ∧ leValue [0x00, 0x80] = 32768 := by decide

/-- `DONE` entered by the block, and an `ISSUE` that ends in `ERROR`, each from a state of the invariant. -/
theorem witness_DoneMeans : Inv p1End ∧ step p1End = .next { p1End with status := .done } ∧ p1End.status ≠ .done ∧
    Inv (withTurns p1 [.host .rdStatus]) ∧ nextIs (step (withTurns State.reset [.host (.issue 0x0#4)])) (fun t => t.status == .error) = true := by
  refine ⟨p1End_inv, rfl, by decide, ?_, by decide⟩
  exact ⟨p1_inv.err_iff, p1_inv.idle, p1_inv.busy, p1_inv.done, p1_inv.malformed, p1_inv.unsupported⟩

theorem witness_EveryStepKeeps : Inv p2 ∧ step p2 = .next { p2 with raw := [0x00, 0x01, 0xFF, 0xFF], idx := 2 } := ⟨p2_inv, rfl⟩

theorem witness_NoStepFails : Inv p1 ∧ p1.status = .busy := ⟨p1_inv, rfl⟩

theorem witness_TransactionTakes : Inv b0 ∧ b0.status = .busy ∧ b0.idx = 0 ∧ b0.turns = [] ∧ 2 ≤ frames b0 :=
  ⟨b0_inv, rfl, rfl, rfl, by decide⟩

/-- Refused and admitted words from one block at rest. -/
theorem witness_SteppedIsAtomic : (ready [1, 2, 3] 1 []).status ≠ .busy ∧ (ready [1, 2, 3] 1 []).turns = [] ∧
    (issueAtomic 0x2#4 (ready [1, 2, 3] 1 [])).status = .error ∧ (issueAtomic 0x3#4 (ready [1, 2, 3] 1 [])).status ≠ .error := by decide

theorem witness_PollingHost : (ready [1, 2] 2 []).status ≠ .busy ∧ PollsOnly [.host .rdStatus, .block, .host .rdStatus] := by
  refine ⟨by decide, ?_⟩
  intro t ht
  simp only [List.mem_cons, List.not_mem_nil, or_false] at ht
  rcases ht with rfl | rfl | rfl
  · exact .inr rfl
  · exact .inl rfl
  · exact .inr rfl

theorem witness_DecodeTransaction : (ready [1, 2, 3] 1 []).status ≠ .busy ∧ (ready [1, 2, 3] 1 []).turns = [] ∧
    (ready [1, 2, 3] 1 []).raw.length = (ready [1, 2, 3] 1 []).frameCount * Width.three.bytes ∧ (0 : Nat) < 1 ∧
    (ready [1, 2, 3] 1 []).raw.length ≠ 1 * Width.two.bytes := by decide

theorem witness_EncodeTransaction : (ready [] 0 [5, 6]).status ≠ .busy ∧ (ready [] 0 [5, 6]).turns = [] ∧
    0xD#4 ∈ [0x8#4, 0xD#4, 0xE#4, 0xF#4] ∧ (withTurns State.reset [.host (.issue 0xD#4)]).turns = [.host (.issue 0xD#4)] := by decide

/-- Two blocks that differ in everything the transaction does not read. -/
theorem witness_Independence :
    (let a := ready [1, 2] 1 [9]
     let b := failed 0x7#4 [1, 2] 1 .unsupportedConfiguration
     a.status ≠ .busy ∧ b.status ≠ .busy ∧ (a.raw = b.raw ∧ a.frameCount = b.frameCount) ∧ a.smp ≠ b.smp ∧ dirField 0x2#4 = .decode) ∧
    (ready [1] 0 [9]).smp = (ready [2] 5 [9]).smp ∧ dirField 0xA#4 = .encode := by decide

theorem witness_EncodedLanes : Width.four ≠ .one ∧ 3 < Width.four.bytes := by decide

/-- Both ends of every range (R77). -/
theorem witness_Bijection : [0x00#8, 0x80#8].length = Width.two.bytes ∧ (-128 : Int) ≥ -(2 ^ (8 * Width.one.bytes - 1)) ∧
    (127 : Int) < 2 ^ (8 * Width.one.bytes - 1) ∧ (-2147483648 : Int) ≥ -(2 ^ (8 * Width.four.bytes - 1)) ∧
    (2147483647 : Int) < 2 ^ (8 * Width.four.bytes - 1) := by decide

theorem witness_DecodeAfterEncode : inRange .three (-8388608) ∧ inRange .three 8388607 := by
  constructor <;> constructor <;> decide

theorem witness_EncodeAfterDecode : [0xFF#8, 0xFF#8, 0x80#8].length = Width.three.bytes ∧
    decodeBuffer [0xFF, 0xFF, 0x80] 1 .three = some [0xFF80FFFF#32] := by decide

theorem witness_HostWritesDropped : (withTurns b1 [.host (.issue 0xC#4)]).status = .busy ∧
    (withTurns b1 [.host (.issue 0xC#4)]).turns = [.host (.issue 0xC#4)] := by decide

theorem witness_Loads : State.reset.status ≠ .busy ∧ b1.status = .busy := by decide

theorem witness_Status : Inv b0 ∧ b0.status = .busy ∧ Inv p1End := ⟨b0_inv, rfl, p1End_inv⟩

theorem witness_Reads : State.reset.status ≠ .busy ∧ b1.status = .busy ∧ Reg.idx ≠ .status ∧ Reg.idx ≠ .err := by decide

theorem witness_ResetEnds : (withTurns p1 [.host .reset]).turns = [.host .reset] ∧ (withTurns p1 [.host .reset]).status = .busy := by decide

theorem witness_ReadyBlockWaits : (failed 0x7#4 [] 0 .unsupportedConfiguration).status ≠ .busy ∧
    (failed 0x7#4 [] 0 .unsupportedConfiguration).turns = [] ∧
    (withTurns (failed 0x7#4 [] 0 .unsupportedConfiguration) [.block]).turns = [.block] := by decide

/-- A load, a frame step and an `ISSUE` all keep the count. -/
theorem witness_FrameCountIsSticky : step (withTurns (ready [] 3 []) [.host (.loadRaw [1])]) = .next (ready [1] 3 []) ∧
    (∀ n, ¬ nextIsHost (.setFc n) (withTurns (ready [] 3 []) [.host (.loadRaw [1])])) ∧
    ¬ nextIsHost .reset (withTurns (ready [] 3 []) [.host (.loadRaw [1])]) := by
  refine ⟨rfl, ?_, ?_⟩
  · rintro n ⟨_, h⟩; cases h
  · rintro ⟨_, h⟩; cases h

theorem witness_CommandIsWritten : Inv p2 ∧ step p2 = .next { p2 with raw := [0x00, 0x01, 0xFF, 0xFF], idx := 2 } ∧
    (∀ c, ¬ nextIsHost (.issue c) p2) ∧ ¬ nextIsHost .reset p2 ∧ State.reset.status ≠ .busy ∧
    (withTurns State.reset [.host (.issue 0xF#4)]).turns = [.host (.issue 0xF#4)] := by
  refine ⟨p2_inv, rfl, ?_, ?_, by decide, rfl⟩
  · rintro c ⟨_, h⟩; cases h
  · rintro ⟨_, h⟩; cases h

/-- A frame step, a reset, an admission and a refusal, each from a state of the invariant or a block at rest. -/
theorem witness_IndexCounts : Inv p2 ∧ step p2 = .next { p2 with raw := [0x00, 0x01, 0xFF, 0xFF], idx := 2 } ∧
    nextIsHost .reset (withTurns p2 [.host .reset]) ∧ State.reset.status ≠ .busy ∧
    step (withTurns (ready [] 0 []) [.host (.issue 0x1#4)]) = .next (flight 0x1#4 [] 0 [] 0) ∧
    step (withTurns (ready [] 1 []) [.host (.issue 0x1#4)]) = .next (failed 0x1#4 [] 1 .malformedInput) :=
  ⟨p2_inv, rfl, ⟨[], rfl⟩, by decide, rfl, rfl⟩

theorem witness_InputBuffer : p1.status = .busy ∧ dirField p1.cmd = .decode ∧ p2.status = .busy ∧ dirField p2.cmd = .encode ∧
    ¬ nextIsHost .reset p1 ∧ step p2 = .next { p2 with raw := [0x00, 0x01, 0xFF, 0xFF], idx := 2 } := by
  refine ⟨rfl, rfl, rfl, rfl, ?_, rfl⟩
  rintro ⟨_, h⟩; cases h

/-- Operands at and just over each bound, and bounds that R5 forbids. -/
theorem witness_Bounds :
    Bounds.wf { fcBits := some 2, rawCap := some 8, smpCap := some 2 } = true ∧
    Bounds.wf { fcBits := some 2, rawCap := some 7, smpCap := some 2 } = false ∧
    nextIs (hostTurn { fcBits := some 2, rawCap := none, smpCap := none } (.setFc 3) State.reset) (fun t => t.frameCount == 3) = true ∧
    hostTurn { fcBits := some 2, rawCap := none, smpCap := none } (.setFc 4) State.reset = .refused .overBound ∧
    hostTurn { fcBits := none, rawCap := some 0, smpCap := some 0 } (.loadRaw [1]) State.reset = .refused .overBound ∧
    hostTurn { fcBits := none, rawCap := none, smpCap := some 0 } (.loadSmp [1]) State.reset = .refused .overBound ∧
    hostTurn { fcBits := some 1, rawCap := none, smpCap := none } (.loadSmp [1, 2]) State.reset = .refused .overBound := by
  refine ⟨by decide, by decide, by decide, rfl, rfl, rfl, rfl⟩

/-- A frame step of a decode whose counts just fit two bits, and a `SMP` at its capacity. -/
theorem witness_BoundedCounts : Inv b1 ∧ b1.frameCount < 2 ^ 2 ∧ b1.idx < 2 ^ 2 ∧ b1.smp.length < 2 ^ 2 ∧
    nextIs (takeTurn { fcBits := some 2, rawCap := none, smpCap := none } b1) (fun t => t.idx == 2) = true ∧
    Bounds.wf { fcBits := none, rawCap := some 8, smpCap := some 2 } = true ∧ [1#32, 2#32].length ≤ 2 :=
  ⟨b1_inv, by decide, by decide, by decide, by decide, by decide, by decide⟩

theorem witness_DecodeCall : State.reset.status ≠ .busy ∧ decodeBuffer [0x00, 0x01] 1 .two = some [0x00000100#32] ∧
    decodeBuffer [1, 2, 3] 1 .two = none ∧ ¬ ((1 : Int) ≤ 0 ∧ (0 : Int) ≤ 4) ∧ ¬ ((1 : Int) ≤ 5 ∧ (5 : Int) ≤ 4) := by decide

theorem witness_EncodeCall : State.reset.status ≠ .busy ∧
    (∀ x : Int, x ∈ [-2147483648, 2147483647] → -2147483648 ≤ x ∧ x ≤ 2147483647) ∧ ¬ ((1 : Int) ≤ 5 ∧ (5 : Int) ≤ 4) ∧
    (∃ x : Int, x ∈ [2147483648] ∧ (x < -2147483648 ∨ 2147483647 < x)) := by
  refine ⟨by decide, by decide, by decide, 2147483648, by decide, by decide⟩

theorem witness_Deca : State.reset.status ≠ .busy ∧ (ready [1, 2, 3] 0 []).raw.length % Width.three.bytes = 0 ∧
    (ready [1, 2, 3] 0 []).raw.length % Width.two.bytes ≠ 0 ∧ Width.ofField 0#3 = none ∧ Width.ofField 5#3 = none := by decide

theorem witness_ContainerRoundTrip : (world eight).ready ∧
    (∀ x : Int, x ∈ [200, -129, 127, -128] → -2147483648 ≤ x ∧ x ≤ 2147483647) ∧ inRange .one 127 ∧ inRange .one (-128) := by
  refine ⟨by unfold World.ready; decide, by decide, ?_, ?_⟩ <;> constructor <;> decide

/-- Vectors K2, K5 and K7: both branches of the range, at its last frame. -/
theorem witness_ReadRange : (world eight).ready ∧ lookupFile "a" (world eight).files = some (.container eight) ∧ eight.wf = true ∧
    eight.channels = 1 ∧ eight.sampleWidth = Width.two.bytes ∧ (decodeBuffer eight.payload eight.frameCount .two).isSome = true ∧
    7 < eight.frameCount ∧ (2 : Nat) ≤ 5 ∧ (7 : Nat) < eight.frameCount := by
  refine ⟨by unfold World.ready; decide, by decide, by decide, rfl, rfl, by decide, by decide, by decide, by decide⟩

/-- A missing path, a stereo container, and ranges just outside: a negative start, a negative end, `startFrame` = `T` + 1,
`endFrame` = `T`, and end before start. -/
theorem witness_ReadFails : lookupFile "b" (world eight).files = none ∧ lookupFile "a" (world stereo).files = some (.container stereo) ∧
    stereo.wf = true ∧ stereo.channels ≠ 1 ∧ IoEvents.fine.openOk = true ∧ (world eight).block.status ≠ .busy ∧
    lookupFile "a" (world eight).files = some (.container eight) ∧ eight.channels = 1 ∧ 1 ≤ eight.sampleWidth ∧ eight.sampleWidth ≤ 4 ∧
    (-1 : Int) < 0 ∧ (eight.frameCount : Int) < 9 ∧ ((8 : Int) ≠ 0 ∧ (eight.frameCount : Int) ≤ 8) ∧ ((4 : Int) ≠ 0 ∧ (4 : Int) < 5) := by
  decide

theorem witness_Handles : (world eight).handle = none := rfl

theorem witness_WriteContainer : (world eight).ready ∧ (∀ x : Int, x ∈ [5, -1] → -2147483648 ≤ x ∧ x ≤ 2147483647) ∧ "b" ≠ "a" ∧
    IoEvents.fine.openOk = true ∧ ¬ ((1 : Int) ≤ 0 ∧ (0 : Int) ≤ 4) := by
  refine ⟨by unfold World.ready; decide, by decide, by decide, rfl, by decide⟩

end Sys2Proof.Tests
end

section
/-! Proofs for the family `00_scope.md`: what bounds a block refuses, and what the bounded block keeps (R5, U11, log entry 8). -/

namespace Sys2Proof.Machine

/-! ### The checks on bounds and operands -/

theorem withinCap_eq_false_iff {cap : Option Nat} {n : Nat} : withinCap cap n = false ↔ ∃ c, cap = some c ∧ c < n := by
  cases cap with
  | none => simp [withinCap]
  | some c => simp [withinCap]

theorem withinBits_eq_false_iff {bits : Option Nat} {n : Nat} :
    withinBits bits n = false ↔ ∃ k, bits = some k ∧ 2 ^ k ≤ n := by
  cases bits with
  | none => simp [withinBits]
  | some k => simp [withinBits]

@[simp] theorem withinBits_some_iff {k n : Nat} : withinBits (some k) n = true ↔ n < 2 ^ k := by simp [withinBits]

/-- R5: the only constraint on bounds is the one between a bound on `RAW` and the bound on `SMP`. -/
theorem bounds_wf_iff (b : Bounds) :
    b.wf = true ↔ b.rawCap = none ∨ ∃ r c, b.rawCap = some r ∧ b.smpCap = some c ∧ 4 * c ≤ r := by
  obtain ⟨_, rawCap, smpCap⟩ := b
  cases rawCap with
  | none => simp [Bounds.wf]
  | some r =>
    cases smpCap with
    | none => simp [Bounds.wf]
    | some c => simp [Bounds.wf]

/-! ### When a turn of the host is refused -/

theorem hostTurn_illFormed {b : Bounds} (op : HostOp) (s : State) (hb : b.wf = false) :
    hostTurn b op s = .refused .boundsIllFormed := by
  rw [hostTurn, hb]
  rfl

/-- R100: while `BUSY` every host operation has an effect, if only to be dropped. -/
theorem hostBusy_answers (op : HostOp) (s : State) : ∃ t, hostBusy op s = .next t := by
  cases op <;> exact ⟨_, rfl⟩

theorem issueWord_answers (c : BitVec 4) {s : State} (h : s.status ≠ .busy) : ∃ t, issueWord c s = .next t := by
  rcases issueWord_cases c h with ⟨_, h⟩ | ⟨_, _, h⟩ | ⟨_, _, h⟩ <;> exact ⟨_, h⟩

/-- R100: on a block that is not `BUSY` every host operation has an effect. -/
theorem hostReady_answers (op : HostOp) {s : State} (h : s.status ≠ .busy) : ∃ t, hostReady op s = .next t := by
  cases op
  case issue c => exact issueWord_answers c h
  all_goals exact ⟨_, rfl⟩

/-- Under well-formed bounds the one refusal of a turn of the host is that of its operand (U11). -/
theorem hostTurn_overBound_iff {b : Bounds} (op : HostOp) (s : State) (hb : b.wf = true) :
    hostTurn b op s = .refused .overBound ↔ op.fits b = false := by
  rcases hostTurn_cases op s hb with ⟨hf, h⟩ | ⟨hf, _, h⟩ | ⟨hf, hs, h⟩
  · simp [hf, h]
  · obtain ⟨t, ht⟩ := hostBusy_answers op s
    simp [hf, h, ht]
  · obtain ⟨t, ht⟩ := hostReady_answers op hs
    simp [hf, h, ht]

/-- Everything a turn of the host has passed when it answers a next state. -/
theorem hostTurn_next {b : Bounds} {op : HostOp} {s t : State} (h : hostTurn b op s = .next t) :
    op.fits b = true ∧ ((s.status = .busy ∧ hostBusy op s = .next t) ∨ (s.status ≠ .busy ∧ hostReady op s = .next t)) := by
  cases hb : b.wf with
  | false =>
    rw [hostTurn_illFormed op s hb] at h
    cases h
  | true =>
    rcases hostTurn_cases op s hb with ⟨_, ht⟩ | ⟨hf, hs, ht⟩ | ⟨hf, hs, ht⟩ <;> rw [ht] at h
    · cases h
    · exact ⟨hf, .inl ⟨hs, h⟩⟩
    · exact ⟨hf, .inr ⟨hs, h⟩⟩

/-- Settles O50: under well-formed bounds a host operation is refused exactly when its operand does not fit. -/
theorem boundedBlocksRefuseOversizedOperands : Obligations.BoundedBlocksRefuseOversizedOperands := by
  refine ⟨bounds_wf_iff, fun b op s hb => hostTurn_illFormed op s hb, fun b n s hb => ?_, fun b bytes s hb => ?_,
    fun b samples s hb => ?_⟩
  · rw [hostTurn_overBound_iff _ s hb, HostOp.fits, withinBits_eq_false_iff]
  · rw [hostTurn_overBound_iff _ s hb, HostOp.fits, withinCap_eq_false_iff]
  · rw [hostTurn_overBound_iff _ s hb, HostOp.fits, Bool.and_eq_false_iff, withinCap_eq_false_iff, withinBits_eq_false_iff]

/-! ### The counts of a bounded block -/

/-- The counts of a block, `FRAMECOUNT`, `IDX` and `len(SMP)`, are below `m`. -/
def CountsBelow (m : Nat) (s : State) : Prop :=
  s.frameCount < m ∧ s.idx < m ∧ s.smp.length < m

theorem countsBelow_of_sameBlock {m : Nat} {s t : State} (h : SameBlock t s) (hm : CountsBelow m s) : CountsBelow m t := by
  obtain ⟨_, hfc, _, _, hidx, _, hsmp⟩ := h
  unfold CountsBelow
  rwa [hfc, hidx, hsmp]

theorem resetBlock_countsBelow {m : Nat} {s : State} (hm : CountsBelow m s) : CountsBelow m (resetBlock s) := by
  have hpos : 0 < m := Nat.zero_lt_of_lt hm.1
  exact ⟨hpos, hpos, hpos⟩

/-- A frame step counts up to the frame count, which is `FRAMECOUNT` or `len(SMP)` (R109), so it stays below what they are below. -/
theorem blockTurn_countsBelow {m : Nat} {s t : State} (h : blockTurn s = .next t) (hm : CountsBelow m s) : CountsBelow m t := by
  obtain ⟨hfc, hidx, hsmp⟩ := hm
  rcases blockTurn_next h with ⟨_, rfl⟩ | ⟨_, w, _, h⟩ | ⟨_, w, _, h⟩
  · exact ⟨hfc, hidx, hsmp⟩
  · rcases decodeBlockStep_next h with ⟨hlt, _, _, _, _, hlen, rfl⟩ | ⟨_, rfl⟩
    · have hnext : s.idx + 1 < m := Nat.lt_of_le_of_lt hlt hfc
      exact ⟨hfc, hnext, by simpa [← hlen] using hnext⟩
    · exact ⟨hfc, hidx, hsmp⟩
  · rcases encodeBlockStep_next h with ⟨hlt, _, _, _, rfl⟩ | ⟨_, rfl⟩
    · exact ⟨hfc, Nat.lt_of_le_of_lt hlt hsmp, hsmp⟩
    · exact ⟨hfc, hidx, hsmp⟩

/-- Admission (R108) leaves `FRAMECOUNT` alone, and `IDX` and `SMP` alone or cleared. -/
theorem issueWord_countsBelow {m : Nat} {c : BitVec 4} {s t : State} (hs : s.status ≠ .busy) (h : issueWord c s = .next t)
    (hm : CountsBelow m s) : CountsBelow m t := by
  obtain ⟨hfc, hidx, hsmp⟩ := hm
  have hpos : 0 < m := Nat.zero_lt_of_lt hfc
  rcases issueWord_cases c hs with ⟨_, hi⟩ | ⟨w, _, hi⟩ | ⟨_, _, hi⟩ <;> rw [hi] at h <;> cases h
  · exact ⟨hfc, hidx, hsmp⟩
  · rcases admitDecode_cases w (writeCmd c s) with ⟨_, ha⟩ | ⟨_, ha⟩ <;> rw [ha]
    · exact ⟨hfc, hpos, hpos⟩
    · exact ⟨hfc, hidx, hsmp⟩
  · exact ⟨hfc, hpos, hsmp⟩

theorem hostBusy_countsBelow {m : Nat} {op : HostOp} {s t : State} (h : hostBusy op s = .next t) (hm : CountsBelow m s) :
    CountsBelow m t := by
  by_cases hr : op = .reset
  · subst hr
    cases h
    exact resetBlock_countsBelow hm
  · exact countsBelow_of_sameBlock (hostBusy_sameBlock h hr) hm

/-- The two operations that write a count, `SETFC` and `LOADSMP`, write one that fits in `FC_BITS` bits. -/
theorem hostReady_countsBelow {b : Bounds} {k : Nat} {op : HostOp} {s t : State} (hk : b.fcBits = some k)
    (hf : op.fits b = true) (hs : s.status ≠ .busy) (h : hostReady op s = .next t) (hm : CountsBelow (2 ^ k) s) :
    CountsBelow (2 ^ k) t := by
  obtain ⟨hfc, hidx, hsmp⟩ := hm
  cases op
  case setFc n =>
    cases h
    rw [HostOp.fits, hk, withinBits_some_iff] at hf
    exact ⟨hf, hidx, hsmp⟩
  case loadSmp samples =>
    cases h
    rw [HostOp.fits, hk, Bool.and_eq_true, withinBits_some_iff] at hf
    exact ⟨hfc, hidx, hf.2⟩
  case issue c => exact issueWord_countsBelow hs h ⟨hfc, hidx, hsmp⟩
  case reset =>
    cases h
    exact resetBlock_countsBelow ⟨hfc, hidx, hsmp⟩
  all_goals
    cases h
    exact ⟨hfc, hidx, hsmp⟩

theorem hostTurn_countsBelow {b : Bounds} {k : Nat} {op : HostOp} {s t : State} (hk : b.fcBits = some k)
    (h : hostTurn b op s = .next t) (hm : CountsBelow (2 ^ k) s) : CountsBelow (2 ^ k) t := by
  obtain ⟨hf, ⟨_, ht⟩ | ⟨hs, ht⟩⟩ := hostTurn_next h
  · exact hostBusy_countsBelow ht hm
  · exact hostReady_countsBelow hk hf hs ht hm

/-- Whoever moves, the counts stay below `2^FC_BITS`, and taking the turn off the list is no count. -/
theorem takeTurn_countsBelow {b : Bounds} {k : Nat} {s t : State} (hk : b.fcBits = some k) (h : takeTurn b s = .next t)
    (hm : CountsBelow (2 ^ k) s) : CountsBelow (2 ^ k) t := by
  unfold takeTurn at h
  split at h
  · exact blockTurn_countsBelow h hm
  · exact blockTurn_countsBelow h hm
  · exact hostTurn_countsBelow hk h hm

/-! ### The output of a bounded encode -/

theorem width_bytes_le_four (w : Width) : w.bytes ≤ 4 := by cases w <;> decide

theorem encodeBuffer_length (smp : List Word) (w : Width) : (encodeBuffer smp w).length = smp.length * w.bytes := by
  induction smp with
  | nil => simp
  | cons v smp ih => rw [encodeBuffer_cons, List.length_append, packGroup_length, ih, List.length_cons, Nat.succ_mul, Nat.add_comm]

/-- R5, D21: four bytes of `RAW` for each cell of `SMP` hold an encode of every width. -/
theorem encodeBuffer_fits {b : Bounds} {r c : Nat} {smp : List Word} (w : Width) (hb : b.wf = true) (hr : b.rawCap = some r)
    (hc : b.smpCap = some c) (hl : smp.length ≤ c) : (encodeBuffer smp w).length ≤ r := by
  have hcap : 4 * c ≤ r := by simpa [hr, hc] using (bounds_wf_iff b).mp hb
  calc (encodeBuffer smp w).length = smp.length * w.bytes := encodeBuffer_length smp w
    _ ≤ c * 4 := Nat.mul_le_mul hl (width_bytes_le_four w)
    _ ≤ r := by omega

/-- Settles O59: every turn keeps the counts below `2^FC_BITS`, from any state in which they are, and an encode of `SMP_CAP`
samples fits. -/
theorem boundedCountsStayBelowTheRegisterWidth : Obligations.BoundedCountsStayBelowTheRegisterWidth :=
  ⟨fun _ _ _ _ hk _ hfc hidx hsmp h => takeTurn_countsBelow hk h ⟨hfc, hidx, hsmp⟩,
    fun _ _ _ _ w hb hr hc hl => encodeBuffer_fits w hb hr hc hl⟩

end Sys2Proof.Machine
end

section
/-! Proofs for the family `10_state.md`, the layer beneath them: what one step does, what keeps the invariant (R16, R21, R109), and how a
transaction in flight comes to its end (R110, R111). -/

namespace Sys2Proof.Machine

/-! ### One step -/

theorem withTurns_sameBlock (s : State) (rest : List Turn) : SameBlock { s with turns := rest } s :=
  ⟨rfl, rfl, rfl, rfl, rfl, rfl, rfl⟩

theorem reply_sameBlock (r : Reply) (s : State) : SameBlock (reply r s) s := ⟨rfl, rfl, rfl, rfl, rfl, rfl, rfl⟩

theorem resetBlock_sameBlock (s : State) : SameBlock (resetBlock s) State.reset := ⟨rfl, rfl, rfl, rfl, rfl, rfl, rfl⟩

/-- Everything a step can be when it answers a next state: a turn of the block, or an operation of the host on a block that is `BUSY` or
not, taken from `u`, the state without the turn. -/
theorem step_next {s t : State} (h : step s = .next t) :
    ∃ u, SameBlock u s ∧ (blockTurn u = .next t ∨
      (∃ op, nextIsHost op s ∧ u.status = .busy ∧ hostBusy op u = .next t) ∨
      (∃ op, nextIsHost op s ∧ u.status ≠ .busy ∧ hostReady op u = .next t)) := by
  rcases step_cases s with ⟨_, hs⟩ | ⟨rest, _, hs⟩ | ⟨op, rest, hop, hs⟩ <;> rw [hs] at h
  · exact ⟨s, sameBlock_refl s, .inl h⟩
  · exact ⟨_, withTurns_sameBlock s rest, .inl h⟩
  · refine ⟨_, withTurns_sameBlock s rest, .inr ?_⟩
    obtain ⟨_, ⟨hb, ht⟩ | ⟨hb, ht⟩⟩ := hostTurn_next h
    · exact .inl ⟨op, ⟨rest, hop⟩, hb, ht⟩
    · exact .inr ⟨op, ⟨rest, hop⟩, hb, ht⟩

/-- R107: `RESET` does the same on a block that is `BUSY` and on one that is not. -/
theorem hostTurn_reset (s : State) : hostTurn Config.bounds .reset s = .next (resetBlock s) := by
  by_cases hs : s.status = .busy
  · rw [hostTurn_busy hs]; rfl
  · rw [hostTurn_ready hs]; rfl

/-! ### The frame count of a transaction -/

theorem frames_of_decode {s : State} {w : Width} (hc : s.cmd = commandWord .decode w) : frames s = s.frameCount := by
  rw [frames, hc, dirField_commandWord]

theorem frames_of_encode {s : State} {w : Width} (hc : s.cmd = commandWord .encode w) : frames s = s.smp.length := by
  rw [frames, hc, dirField_commandWord]

theorem frames_of_sameBlock {a b : State} (h : SameBlock a b) : frames a = frames b := by
  obtain ⟨hcmd, hfc, _, _, _, _, hsmp⟩ := h
  rw [frames, frames, hcmd, hfc, hsmp]

/-! ### States of the invariant -/

/-- The invariant speaks of the block alone, and of its buffers only while `BUSY`. -/
theorem inv_of_sameBlock {s t : State} (h : SameBlock t s) (hs : Inv s) : Inv t := by
  obtain ⟨cmd, frameCount, status, err, idx, raw, smp, _, _, _⟩ := s
  obtain ⟨rfl, rfl, rfl, rfl, rfl, rfl, rfl⟩ := h
  exact ⟨hs.err_iff, hs.idle, hs.busy, hs.done, hs.malformed, hs.unsupported⟩

/-- While not `BUSY` the invariant is about the command, the report and the index only. -/
theorem inv_of_ready {s t : State} (hs : Inv s) (hb : s.status ≠ .busy) (hcmd : t.cmd = s.cmd) (hst : t.status = s.status)
    (herr : t.err = s.err) (hidx : t.idx = s.idx) : Inv t where
  err_iff := by rw [herr, hst]; exact hs.err_iff
  idle := by rw [hst, hcmd, hidx]; exact hs.idle
  busy := fun h => absurd (hst ▸ h) hb
  done := by rw [hst, hcmd]; exact hs.done
  malformed := by rw [herr, hcmd]; exact hs.malformed
  unsupported := by rw [herr, hcmd]; exact hs.unsupported

theorem inv_of_inFlight {s : State} {w : Width} (hb : s.status = .busy) (he : s.err = .none)
    (hw : DecodeInFlight s w ∨ EncodeInFlight s w) : Inv s where
  err_iff := by simp [hb, he]
  idle := by simp [hb]
  busy := fun _ => ⟨w, hw⟩
  done := by simp [hb]
  malformed := by simp [he]
  unsupported := by simp [he]

theorem inv_raiseError_malformed {s : State} {w : Width} (hc : s.cmd = commandWord .decode w) :
    Inv (raiseError .malformedInput s) where
  err_iff := by simp [CodecError.err]
  idle := by simp
  busy := by simp
  done := by simp
  malformed := fun _ => ⟨w, hc⟩
  unsupported := by simp [CodecError.err]

theorem inv_raiseError_unsupported {s : State} (hc : Width.ofField (widthField s.cmd) = none) :
    Inv (raiseError .unsupportedConfiguration s) where
  err_iff := by simp [CodecError.err]
  idle := by simp
  busy := by simp
  done := by simp
  malformed := by simp [CodecError.err]
  unsupported := fun _ => hc

/-- R21: while `BUSY` no error is reported. -/
theorem Inv.err_of_busy {s : State} (hs : Inv s) (hb : s.status = .busy) : s.err = .none := by
  by_contra he
  have := hs.err_iff.mp he
  simp [hb] at this

/-- R109: the command in flight is the one in `CMD`. -/
theorem Inv.inFlight {s : State} (hs : Inv s) (hb : s.status = .busy) :
    ∃ w, (s.cmd = commandWord .decode w ∧ DecodeInFlight s w) ∨ (s.cmd = commandWord .encode w ∧ EncodeInFlight s w) := by
  obtain ⟨w, ⟨hc, hf⟩ | ⟨hc, hf⟩⟩ := hs.busy hb
  · exact ⟨w, .inl ⟨hc, hc, hf⟩⟩
  · exact ⟨w, .inr ⟨hc, hc, hf⟩⟩

/-- R110: the end of a transaction in flight meets the invariant. -/
theorem inv_complete {s : State} (hs : Inv s) (hb : s.status = .busy) : Inv (complete s) := by
  have he := hs.err_of_busy hb
  refine ⟨by simp [he], by simp, by simp, fun _ => ?_, by simp [he], by simp [he]⟩
  obtain ⟨w, ⟨hc, _⟩ | ⟨hc, _⟩⟩ := hs.inFlight hb
  · exact ⟨_, by rw [complete_cmd, hc, decode_commandWord]⟩
  · exact ⟨_, by rw [complete_cmd, hc, decode_commandWord]⟩

/-! ### The atomic transaction, case by case -/

@[simp] theorem ofDirWidth_dir (d : Direction) (w : Width) : (Instr.ofDirWidth d w).dir = d := by cases d <;> cases w <;> rfl

@[simp] theorem ofDirWidth_width (d : Direction) (w : Width) : (Instr.ofDirWidth d w).width = w := by cases d <;> cases w <;> rfl

theorem issueAtomic_unsupported {c : BitVec 4} (s : State) (h : Width.ofField (widthField c) = none) :
    issueAtomic c s = raiseError .unsupportedConfiguration (writeCmd c s) := by
  simp only [issueAtomic, decode, h]

theorem issueAtomic_malformed {w : Width} {s : State} (h : s.raw.length ≠ s.frameCount * w.bytes) :
    issueAtomic (commandWord .decode w) s = raiseError .malformedInput (writeCmd (commandWord .decode w) s) := by
  simp only [issueAtomic, decode_commandWord, transact, ofDirWidth_dir, ofDirWidth_width, writeCmd_raw, writeCmd_frameCount,
    decodeBuffer_malformed h]

theorem issueAtomic_decode {w : Width} {s : State} {out : List Word} (h : decodeBuffer s.raw s.frameCount w = some out) :
    issueAtomic (commandWord .decode w) s =
      { s with cmd := commandWord .decode w, smp := out, idx := s.frameCount, err := .none, status := .done } := by
  simp only [issueAtomic, decode_commandWord, transact, ofDirWidth_dir, ofDirWidth_width, writeCmd_raw, writeCmd_frameCount, h]
  rfl

theorem issueAtomic_encode (w : Width) (s : State) :
    issueAtomic (commandWord .encode w) s =
      { s with cmd := commandWord .encode w, raw := encodeBuffer s.smp w, idx := s.smp.length, err := .none, status := .done } := by
  simp only [issueAtomic, decode_commandWord, transact, ofDirWidth_dir, ofDirWidth_width, writeCmd_smp]
  rfl

/-- The atomic transaction reads and writes the block alone. -/
theorem issueAtomic_sameBlock (c : BitVec 4) {a b : State} (h : SameBlock a b) :
    SameBlock (issueAtomic c a) (issueAtomic c b) := by
  obtain ⟨_, hfc, _, _, hidx, hraw, hsmp⟩ := h
  rcases commandWord_cases c with hu | ⟨d, w, rfl⟩
  · rw [issueAtomic_unsupported a hu, issueAtomic_unsupported b hu]
    exact ⟨rfl, hfc, rfl, rfl, hidx, hraw, hsmp⟩
  cases d with
  | decode =>
    by_cases hl : b.raw.length = b.frameCount * w.bytes
    · obtain ⟨out, ho, _⟩ := decodeBuffer_of_length hl
      rw [issueAtomic_decode ho, issueAtomic_decode (s := a) (by rw [hraw, hfc]; exact ho)]
      exact ⟨rfl, hfc, rfl, rfl, hfc, hraw, rfl⟩
    · rw [issueAtomic_malformed hl, issueAtomic_malformed (s := a) (by rw [hraw, hfc]; exact hl)]
      exact ⟨rfl, hfc, rfl, rfl, hidx, hraw, hsmp⟩
  | encode =>
    rw [issueAtomic_encode w a, issueAtomic_encode w b, hsmp]
    exact ⟨rfl, hfc, rfl, rfl, rfl, rfl, rfl⟩

/-! ### Admission (R108) -/

/-- `t` is the state in which the block admits the command `c` that it is handed in `s`: in flight with no frame converted, and to end
where the atomic transaction ends. -/
structure Admitted (c : BitVec 4) (s t : State) : Prop where
  inv : Inv t
  busy : t.status = .busy
  cmd : t.cmd = c
  idx : t.idx = 0
  atomic : issueAtomic c t = issueAtomic c s

theorem admitted_decode {w : Width} {s : State} (h : s.raw.length = s.frameCount * w.bytes) :
    Admitted (commandWord .decode w) s (startDecode (writeCmd (commandWord .decode w) s)) where
  inv := inv_of_inFlight (w := w) rfl rfl (.inl ⟨rfl, h, Nat.zero_le _, rfl⟩)
  busy := rfl
  cmd := rfl
  idx := rfl
  atomic := by
    obtain ⟨out, ho, _⟩ := decodeBuffer_of_length h
    rw [issueAtomic_decode ho]
    exact issueAtomic_decode ho

theorem admitted_encode (w : Width) (s : State) :
    Admitted (commandWord .encode w) s (startEncode (writeCmd (commandWord .encode w) s)) where
  inv := inv_of_inFlight (w := w) rfl rfl (.inr ⟨rfl, Nat.zero_le _, rfl⟩)
  busy := rfl
  cmd := rfl
  idx := rfl
  atomic := by
    rw [issueAtomic_encode w s]
    exact issueAtomic_encode w _

/-- Everything an `ISSUE` on a block that is not `BUSY` does: it is refused, which is the whole atomic transaction, or admitted. -/
theorem issueWord_refuses_or_admits (c : BitVec 4) {s : State} (hs : s.status ≠ .busy) :
    ∃ t, issueWord c s = .next t ∧
      ((t = issueAtomic c s ∧ Inv t ∧ t.status = .error ∧ t.cmd = c ∧ t.idx = s.idx) ∨ Admitted c s t) := by
  rcases issueWord_cases c hs with ⟨hu, h⟩ | ⟨w, rfl, h⟩ | ⟨w, rfl, h⟩
  · exact ⟨_, h, .inl ⟨(issueAtomic_unsupported s hu).symm, inv_raiseError_unsupported hu, rfl, rfl, rfl⟩⟩
  · rcases admitDecode_cases w (writeCmd (commandWord .decode w) s) with ⟨hl, ha⟩ | ⟨hl, ha⟩ <;> rw [ha] at h
    · exact ⟨_, h, .inr (admitted_decode hl)⟩
    · exact ⟨_, h, .inl ⟨(issueAtomic_malformed hl).symm, inv_raiseError_malformed rfl, rfl, rfl, rfl⟩⟩
  · exact ⟨_, h, .inr (admitted_encode w s)⟩

/-! ### The block's steps in flight (R109, R110) -/

/-- `t` is `s` with one frame more converted: the same transaction, to end where it was to end. -/
structure FrameStep (s t : State) : Prop where
  below : s.idx < frames s
  inv : Inv t
  busy : t.status = .busy
  cmd : t.cmd = s.cmd
  idx : t.idx = s.idx + 1
  frames_eq : frames t = frames s
  atomic : issueAtomic t.cmd t = issueAtomic s.cmd s

/-- R76: with all frames of an admitted buffer converted, the buffer is. -/
theorem decodeBuffer_of_prefix {w : Width} {raw : List Byte} {n : Nat} {out : List Word} (hl : raw.length = n * w.bytes)
    (h : decodePrefix w raw n = some out) : decodeBuffer raw n w = some out := by
  rw [decodeBuffer, if_pos hl, h]

theorem encodeBuffer_take_succ {w : Width} {smp : List Word} {n : Nat} {v : Word} (h : smp[n]? = some v) :
    encodeBuffer (smp.take (n + 1)) w = encodeBuffer (smp.take n) w ++ packGroup w v := by
  rw [List.take_add_one, h, encodeBuffer_append]
  simp

theorem decode_frameStep {w : Width} {s : State} (hb : s.status = .busy) (he : s.err = .none) (hf : DecodeInFlight s w)
    (hlt : s.idx < s.frameCount) : ∃ t, decodeFrame w s = .next t ∧ FrameStep s t := by
  obtain ⟨hc, hl, _, hp⟩ := hf
  obtain ⟨_, v, _, _, hv⟩ := frameSample_inside (w := w) (raw := s.raw) (i := s.idx) (by rw [hl]; exact frame_fits hlt)
  obtain ⟨out, ho, _⟩ := decodeBuffer_of_length hl
  refine ⟨_, decodeFrame_runs hv (decodePrefix_length hp), ?_⟩
  exact {
    below := by rwa [frames_of_decode hc]
    inv := inv_of_inFlight (w := w) hb he (.inl ⟨hc, hl, hlt, decodePrefix_succ hp hv⟩)
    busy := hb
    cmd := rfl
    idx := rfl
    frames_eq := by rw [frames_of_decode hc]; exact frames_of_decode hc
    atomic := by
      simp only [hc]
      rw [issueAtomic_decode ho]
      exact issueAtomic_decode ho }

theorem encode_frameStep {w : Width} {s : State} (hb : s.status = .busy) (he : s.err = .none) (hf : EncodeInFlight s w)
    (hlt : s.idx < s.smp.length) : ∃ t, encodeFrame w s = .next t ∧ FrameStep s t := by
  obtain ⟨hc, _, hr⟩ := hf
  have hv : s.smp[s.idx]? = some s.smp[s.idx] := List.getElem?_eq_getElem hlt
  have hl : s.raw.length = s.idx * w.bytes := by rw [hr, encodeBuffer_length, List.length_take_of_le hlt.le]
  refine ⟨_, encodeFrame_runs hv hl, ?_⟩
  exact {
    below := by rwa [frames_of_encode hc]
    inv := inv_of_inFlight (w := w) hb he (.inr ⟨hc, hlt, by rw [encodeBuffer_take_succ hv, ← hr]⟩)
    busy := hb
    cmd := rfl
    idx := rfl
    frames_eq := by rw [frames_of_encode hc]; exact frames_of_encode hc
    atomic := by simp only [hc, issueAtomic_encode] }

/-- R110: with every frame converted, `COMPLETE` makes the state of the atomic transaction. -/
theorem complete_eq_issueAtomic {s : State} (hs : Inv s) (hb : s.status = .busy) (hi : s.idx = frames s) :
    complete s = issueAtomic s.cmd s := by
  have he := hs.err_of_busy hb
  obtain ⟨w, ⟨hc, _, hl, _, hp⟩ | ⟨hc, _, _, hr⟩⟩ := hs.inFlight hb
  · rw [frames_of_decode hc] at hi
    rw [hi] at hp
    rw [hc, issueAtomic_decode (decodeBuffer_of_prefix hl hp)]
    simp [complete, hc, hi, he]
  · rw [frames_of_encode hc] at hi
    rw [hi, List.take_length] at hr
    rw [hc, issueAtomic_encode]
    simp [complete, hc, hi, he, ← hr]

/-- R17: `IDX` never passes the frame count. -/
theorem Inv.idx_le_frames {s : State} (hs : Inv s) (hb : s.status = .busy) : s.idx ≤ frames s := by
  obtain ⟨w, ⟨hc, _, _, hle, _⟩ | ⟨hc, _, hle, _⟩⟩ := hs.inFlight hb
  · rwa [frames_of_decode hc]
  · rwa [frames_of_encode hc]

/-- Everything the block does with a transaction in flight under the invariant: a frame step below the frame count, `COMPLETE` at it. -/
theorem blockTurn_of_inv {s : State} (hs : Inv s) (hb : s.status = .busy) :
    (∃ t, blockTurn s = .next t ∧ FrameStep s t) ∨ (s.idx = frames s ∧ blockTurn s = .next (complete s)) := by
  have he := hs.err_of_busy hb
  rcases Nat.lt_or_eq_of_le (hs.idx_le_frames hb) with hlt | hi
  · left
    obtain ⟨w, ⟨hc, hf⟩ | ⟨hc, hf⟩⟩ := hs.inFlight hb
    · rw [frames_of_decode hc] at hlt
      rw [blockTurn_decode hb hc, decodeBlockStep, if_pos hlt]
      exact decode_frameStep hb he hf hlt
    · rw [frames_of_encode hc] at hlt
      rw [blockTurn_encode hb hc, encodeBlockStep, if_pos hlt]
      exact encode_frameStep hb he hf hlt
  · refine .inr ⟨hi, ?_⟩
    obtain ⟨w, ⟨hc, _⟩ | ⟨hc, _⟩⟩ := hs.inFlight hb
    · rw [frames_of_decode hc] at hi
      rw [blockTurn_decode hb hc, decodeBlockStep, if_neg (by omega), if_pos hi]
    · rw [frames_of_encode hc] at hi
      rw [blockTurn_encode hb hc, encodeBlockStep, if_neg (by omega), if_pos hi]

end Sys2Proof.Machine
end

section
/-! Proofs for the family `10_state.md`: the reset values, the invariant, who writes `CMD` and `IDX`, and the independence of transactions
(R12, R16, R17, R20, R24). -/

namespace Sys2Proof.Machine

/-! ### Reset (R20) -/

/-- Settles O42: the table of R20 is the literal `State.reset`. -/
theorem resetValuesAreTheTable : Obligations.ResetValuesAreTheTable := by
  unfold Obligations.ResetValuesAreTheTable
  decide

/-- Settles O23: after reset the block is `IDLE` without an error, and the other clauses speak of other states. -/
theorem resetMeetsTheInvariant : Obligations.ResetMeetsTheInvariant where
  err_iff := by decide
  idle := fun _ => ⟨rfl, rfl⟩
  busy := by intro h; cases h
  done := by intro h; cases h
  malformed := by intro h; cases h
  unsupported := by intro h; cases h

theorem resetBlock_inv (s : State) : Inv (resetBlock s) :=
  inv_of_sameBlock (resetBlock_sameBlock s) resetMeetsTheInvariant

/-! ### Every step keeps the invariant (R16, R21, R109, R141) -/

theorem blockTurn_inv {s t : State} (hs : Inv s) (h : blockTurn s = .next t) : Inv t := by
  by_cases hb : s.status = .busy
  · obtain ⟨u, hu, hframe⟩ | ⟨_, hc⟩ := blockTurn_of_inv hs hb
    · cases hu.symm.trans h
      exact hframe.inv
    · cases hc.symm.trans h
      exact inv_complete hs hb
  · rw [blockTurn_ready hb] at h
    cases h
    exact hs

theorem issueWord_inv {c : BitVec 4} {s t : State} (hb : s.status ≠ .busy) (h : issueWord c s = .next t) : Inv t := by
  obtain ⟨u, hu, ⟨_, hinv, _⟩ | hadm⟩ := issueWord_refuses_or_admits c hb <;> cases hu.symm.trans h
  · exact hinv
  · exact hadm.inv

theorem hostBusy_inv {op : HostOp} {s t : State} (hs : Inv s) (h : hostBusy op s = .next t) : Inv t := by
  by_cases hr : op = .reset
  · subst hr
    cases h
    exact resetBlock_inv s
  · exact inv_of_sameBlock (hostBusy_sameBlock h hr) hs

/-- A host operation on a block that is not `BUSY` is an `ISSUE`, a `RESET`, or one that leaves the command, the report and the index
alone. -/
theorem hostReady_cases {op : HostOp} {s t : State} (h : hostReady op s = .next t) :
    (∃ c, op = .issue c ∧ issueWord c s = .next t) ∨ (op = .reset ∧ t = resetBlock s) ∨
    ((∀ c, op ≠ .issue c) ∧ op ≠ .reset ∧ t.cmd = s.cmd ∧ t.status = s.status ∧ t.err = s.err ∧ t.idx = s.idx) := by
  by_cases hi : ∃ c, op = .issue c
  · obtain ⟨c, rfl⟩ := hi
    exact .inl ⟨c, rfl, h⟩
  by_cases hr : op = .reset
  · subst hr
    cases h
    exact .inr (.inl ⟨rfl, rfl⟩)
  · have hni : ∀ c, op ≠ .issue c := fun c hc => hi ⟨c, hc⟩
    obtain ⟨hcmd, hst, herr, hidx, _⟩ := hostReady_keeps h hni hr
    exact .inr (.inr ⟨hni, hr, hcmd, hst, herr, hidx⟩)

theorem hostReady_inv {op : HostOp} {s t : State} (hs : Inv s) (hb : s.status ≠ .busy) (h : hostReady op s = .next t) : Inv t := by
  rcases hostReady_cases h with ⟨_, _, hi⟩ | ⟨_, rfl⟩ | ⟨_, _, hcmd, hst, herr, hidx⟩
  · exact issueWord_inv hb hi
  · exact resetBlock_inv s
  · exact inv_of_ready hs hb hcmd hst herr hidx

/-- Settles O24: a turn of the block advances or completes what is in flight, and a turn of the host admits, refuses, resets, or touches
nothing the invariant speaks of. -/
theorem everyStepKeepsTheInvariant : Obligations.EveryStepKeepsTheInvariant := by
  intro s t hs h
  obtain ⟨u, hus, hblock | ⟨_, _, _, hbusy⟩ | ⟨_, _, hb, hready⟩⟩ := step_next h
  · exact blockTurn_inv (inv_of_sameBlock hus hs) hblock
  · exact hostBusy_inv (inv_of_sameBlock hus hs) hbusy
  · exact hostReady_inv (inv_of_sameBlock hus hs) hb hready

/-! ### Who writes `CMD` (R12) -/

theorem issueWord_cmd {c : BitVec 4} {s t : State} (hb : s.status ≠ .busy) (h : issueWord c s = .next t) : t.cmd = c := by
  obtain ⟨u, hu, ⟨_, _, _, hcmd, _⟩ | hadm⟩ := issueWord_refuses_or_admits c hb <;> cases hu.symm.trans h
  · exact hcmd
  · exact hadm.cmd

/-- No step but the host's `ISSUE` and `RESET` writes `CMD`, from any state. -/
theorem step_keeps_cmd {s t : State} (h : step s = .next t) (hi : ∀ c, ¬ nextIsHost (.issue c) s) (hr : ¬ nextIsHost .reset s) :
    t.cmd = s.cmd := by
  obtain ⟨u, ⟨hcmd, _⟩, hblock | ⟨op, hop, _, hbusy⟩ | ⟨op, hop, _, hready⟩⟩ := step_next h
  · exact (blockTurn_keeps hblock).1.trans hcmd
  · have hne : op ≠ .reset := by rintro rfl; exact hr hop
    exact (hostBusy_sameBlock hbusy hne).1.trans hcmd
  · rcases hostReady_cases hready with ⟨c, rfl, _⟩ | ⟨rfl, _⟩ | ⟨_, _, hkeep, _⟩
    · exact absurd hop (hi c)
    · exact absurd hop hr
    · exact hkeep.trans hcmd

/-- A step whose turn is an `ISSUE` on a block that is not `BUSY` is the `ISSUE` of its word. -/
theorem step_issue {s : State} {c : BitVec 4} {rest : List Turn} (hb : s.status ≠ .busy) (ht : s.turns = .host (.issue c) :: rest) :
    step s = issueWord c { s with turns := rest } :=
  (step_host ht).trans (hostTurn_ready (s := { s with turns := rest }) hb)

/-- Settles O46. -/
theorem commandIsWrittenOnlyByIssue : Obligations.CommandIsWrittenOnlyByIssue := by
  refine ⟨fun s t _ h hi hr => step_keeps_cmd h hi hr, fun s c rest hb ht => ?_⟩
  obtain ⟨t, h⟩ := issueWord_answers c (s := { s with turns := rest }) hb
  exact ⟨t, (step_issue hb ht).trans h, issueWord_cmd (s := { s with turns := rest }) hb h⟩

/-! ### Who moves `IDX` (R17) -/

theorem blockTurn_idx {s t : State} (hs : Inv s) (h : blockTurn s = .next t) :
    t.idx = s.idx ∨ (s.status = .busy ∧ t.status = .busy ∧ s.idx < frames s ∧ t.idx = s.idx + 1) := by
  by_cases hb : s.status = .busy
  · obtain ⟨u, hu, hframe⟩ | ⟨_, hc⟩ := blockTurn_of_inv hs hb
    · cases hu.symm.trans h
      exact .inr ⟨hb, hframe.busy, hframe.below, hframe.idx⟩
    · cases hc.symm.trans h
      exact .inl rfl
  · rw [blockTurn_ready hb] at h
    cases h
    exact .inl rfl

/-- R108: an admission clears `IDX`, a refusal leaves it. -/
theorem issueWord_idx {c : BitVec 4} {s t : State} (hb : s.status ≠ .busy) (h : issueWord c s = .next t) :
    (t.status = .error ∧ t.idx = s.idx) ∨ (t.status = .busy ∧ t.idx = 0) := by
  obtain ⟨u, hu, ⟨_, _, herr, _, hidx⟩ | hadm⟩ := issueWord_refuses_or_admits c hb <;> cases hu.symm.trans h
  · exact .inl ⟨herr, hidx⟩
  · exact .inr ⟨hadm.busy, hadm.idx⟩

/-- R17: the four ways of `IDX` under the invariant. -/
theorem step_idx {s t : State} (hs : Inv s) (h : step s = .next t) :
    t.idx = s.idx ∨
    (s.status = .busy ∧ t.status = .busy ∧ s.idx < frames s ∧ t.idx = s.idx + 1) ∨
    (nextIsHost .reset s ∧ t.idx = 0) ∨
    ((∃ c, nextIsHost (.issue c) s) ∧ s.status ≠ .busy ∧ t.status = .busy ∧ t.idx = 0) := by
  obtain ⟨u, hus, hmove⟩ := step_next h
  have hframes := frames_of_sameBlock hus
  have hu := inv_of_sameBlock hus hs
  obtain ⟨_, _, hst, _, hidx, _, _⟩ := hus
  rw [← hst, ← hidx, ← hframes]
  obtain hblock | ⟨op, hop, _, hbusy⟩ | ⟨op, hop, hb, hready⟩ := hmove
  · rcases blockTurn_idx hu hblock with hkeep | hframe
    · exact .inl hkeep
    · exact .inr (.inl hframe)
  · by_cases hr : op = .reset
    · subst hr
      cases hbusy
      exact .inr (.inr (.inl ⟨hop, rfl⟩))
    · obtain ⟨_, _, _, _, hkeep, _⟩ := hostBusy_sameBlock hbusy hr
      exact .inl hkeep
  · rcases hostReady_cases hready with ⟨c, rfl, hi⟩ | ⟨rfl, rfl⟩ | ⟨_, _, _, _, _, hkeep⟩
    · rcases issueWord_idx hb hi with ⟨_, hkeep⟩ | ⟨htb, hzero⟩
      · exact .inl hkeep
      · exact .inr (.inr (.inr ⟨⟨c, hop⟩, hb, htb, hzero⟩))
    · exact .inr (.inr (.inl ⟨hop, rfl⟩))
    · exact .inl hkeep

theorem step_reset_idx {s t : State} (h : step s = .next t) (hop : nextIsHost .reset s) : t.idx = 0 := by
  obtain ⟨rest, hr⟩ := hop
  rw [step_host hr, hostTurn_reset] at h
  cases h
  rfl

theorem step_issue_idx {s t : State} {c : BitVec 4} (h : step s = .next t) (hb : s.status ≠ .busy)
    (hop : nextIsHost (.issue c) s) : (t.status = .busy → t.idx = 0) ∧ (t.status = .error → t.idx = s.idx) := by
  obtain ⟨rest, hr⟩ := hop
  rw [step_issue hb hr] at h
  rcases issueWord_idx (s := { s with turns := rest }) hb h with ⟨herr, hkeep⟩ | ⟨hbusy, hzero⟩
  · exact ⟨fun hbusy => by simp [herr] at hbusy, fun _ => hkeep⟩
  · exact ⟨fun _ => hzero, fun herr => by simp [hbusy] at herr⟩

/-- Settles O47. -/
theorem indexCountsConvertedFrames : Obligations.IndexCountsConvertedFrames :=
  ⟨fun _ _ => step_idx, fun _ _ => step_reset_idx, fun _ _ _ => step_issue_idx, fun _ => Inv.idx_le_frames⟩

/-! ### `ISSUE` and `WAIT` reach the atomic transaction (R105, R111) -/

/-- `s` after a poll by `RDSTATUS` (`hostTurn_rdStatus`). -/
def polled (s : State) : State := reply (.status s.status s.err) s

theorem polled_sameBlock (s : State) : SameBlock (polled s) s := reply_sameBlock _ s

/-- One poll and one turn of the block: what `WAIT` repeats while the block is `BUSY`. -/
theorem waitFor_busy {k : Nat} {s t : State} (hb : s.status = .busy) (h : blockTurn (polled s) = .next t) :
    waitFor (k + 1) s = waitFor k t := by
  simp only [polled, waitFor, hostTurn_rdStatus, andThen, reply_status, hb] at h ⊢
  rw [h]

/-- `WAIT` on a block that is not `BUSY` leaves the block as it is. -/
theorem waitFor_ready (k : Nat) {s : State} (hb : s.status ≠ .busy) : ∃ t, waitFor k s = .next t ∧ SameBlock t s := by
  cases k with
  | zero => exact ⟨s, rfl, sameBlock_refl s⟩
  | succ k =>
    refine ⟨polled s, ?_, polled_sameBlock s⟩
    simp only [waitFor, hostTurn_rdStatus, andThen]
    split
    · exact absurd ‹_› hb
    · rfl

theorem turnsLeft_of_sameBlock {a b : State} (h : SameBlock a b) : turnsLeft a = turnsLeft b := by
  have hframes := frames_of_sameBlock h
  obtain ⟨_, _, _, _, hidx, _, _⟩ := h
  rw [turnsLeft, turnsLeft, hframes, hidx]

/-- R115: a frame step is one of the turns left. -/
theorem FrameStep.turnsLeft_succ {s t : State} (h : FrameStep s t) : turnsLeft t + 1 = turnsLeft s := by
  have hbelow := h.below
  rw [turnsLeft, turnsLeft, h.frames_eq, h.idx]
  omega

/-- With a poll for each turn the block has left, `WAIT` ends where the atomic transaction of the command in flight does. -/
theorem waitFor_inFlight (k : Nat) {s : State} (hs : Inv s) (hb : s.status = .busy) (hk : turnsLeft s ≤ k) :
    ∃ t, waitFor k s = .next t ∧ SameBlock t (issueAtomic s.cmd s) := by
  induction k generalizing s with
  | zero => exact absurd hk (Nat.not_succ_le_zero _)
  | succ k ih =>
    have hinv : Inv (polled s) := inv_of_sameBlock (polled_sameBlock s) hs
    have hatomic : SameBlock (issueAtomic s.cmd (polled s)) (issueAtomic s.cmd s) := issueAtomic_sameBlock s.cmd (polled_sameBlock s)
    rcases blockTurn_of_inv hinv hb with ⟨u, hu, hframe⟩ | ⟨hi, hc⟩
    · have hleft : turnsLeft u + 1 = turnsLeft s := hframe.turnsLeft_succ.trans (turnsLeft_of_sameBlock (polled_sameBlock s))
      obtain ⟨t, ht, hsame⟩ := ih hframe.inv hframe.busy (by omega)
      rw [hframe.atomic] at hsame
      exact ⟨t, (waitFor_busy hb hu).trans ht, sameBlock_trans hsame hatomic⟩
    · obtain ⟨t, ht, hsame⟩ := waitFor_ready k (s := complete (polled s)) (by simp)
      rw [complete_eq_issueAtomic hinv hb hi] at hsame
      exact ⟨t, (waitFor_busy hb hc).trans ht, sameBlock_trans hsame hatomic⟩

/-- R111 for the host program `ISSUE c; WAIT` on a block that is not `BUSY`. -/
theorem perform_issue_wait (c : BitVec 4) {s : State} (hb : s.status ≠ .busy) :
    ∃ t, perform [.op (.issue c), .wait] s = .next t ∧ SameBlock t (issueAtomic c s) := by
  obtain ⟨u, hu, hend⟩ := issueWord_refuses_or_admits c hb
  have hissue : hostTurn Config.bounds (.issue c) s = .next u := (hostTurn_ready hb).trans hu
  have hwait : ∃ t, wait u = .next t ∧ SameBlock t (issueAtomic c s) := by
    rcases hend with ⟨rfl, _, herr, _⟩ | hadm
    · exact waitFor_ready _ (by simp [herr])
    · obtain ⟨t, ht, hsame⟩ := waitFor_inFlight _ hadm.inv hadm.busy (Nat.le_succ _)
      rw [hadm.cmd, hadm.atomic] at hsame
      exact ⟨t, ht, hsame⟩
  obtain ⟨t, ht, hsame⟩ := hwait
  exact ⟨t, by simp only [perform, performLine, hissue, ht, andThen], hsame⟩

/-! ### Transactions are independent (R24) -/

/-- What R24 speaks of: `a` and `b` report the same end of a command of direction `d`, with the same output buffer when it is `DONE`. -/
def SameOutcome (d : Direction) (a b : State) : Prop :=
  a.status ≠ .busy ∧ a.status = b.status ∧ a.err = b.err ∧
    (a.status = .done → d = .decode → a.smp = b.smp) ∧ (a.status = .done → d = .encode → a.raw = b.raw)

theorem sameOutcome_of_sameBlock {d : Direction} {a b a' b' : State} (ha : SameBlock a' a) (hb : SameBlock b' b)
    (h : SameOutcome d a b) : SameOutcome d a' b' := by
  obtain ⟨_, _, hsta, herra, _, hrawa, hsmpa⟩ := ha
  obtain ⟨_, _, hstb, herrb, _, hrawb, hsmpb⟩ := hb
  rw [SameOutcome, hsta, herra, hrawa, hsmpa, hstb, herrb, hrawb, hsmpb]
  exact h

/-- The atomic transaction is a function of the explicit inputs: `RAW` and `FRAMECOUNT` for a decode, `SMP` for an encode. -/
theorem issueAtomic_sameOutcome {c : BitVec 4} {a b : State}
    (hdec : dirField c = .decode → a.raw = b.raw ∧ a.frameCount = b.frameCount) (henc : dirField c = .encode → a.smp = b.smp) :
    SameOutcome (dirField c) (issueAtomic c a) (issueAtomic c b) := by
  rcases commandWord_cases c with hu | ⟨d, w, rfl⟩
  · rw [issueAtomic_unsupported a hu, issueAtomic_unsupported b hu]
    simp [SameOutcome]
  rw [dirField_commandWord] at hdec henc ⊢
  cases d with
  | decode =>
    obtain ⟨hraw, hfc⟩ := hdec rfl
    by_cases hl : b.raw.length = b.frameCount * w.bytes
    · obtain ⟨out, ho, _⟩ := decodeBuffer_of_length hl
      rw [issueAtomic_decode ho, issueAtomic_decode (s := a) (by rw [hraw, hfc]; exact ho)]
      simp [SameOutcome]
    · rw [issueAtomic_malformed hl, issueAtomic_malformed (s := a) (by rw [hraw, hfc]; exact hl)]
      simp [SameOutcome]
  | encode =>
    rw [issueAtomic_encode, issueAtomic_encode, henc rfl]
    simp [SameOutcome]

/-- Settles O31: both blocks end their `ISSUE` and `WAIT` as the atomic transaction does, which reads the explicit inputs only. -/
theorem transactionsAreIndependent : Obligations.TransactionsAreIndependent := by
  intro a b c ha hb hdec henc
  obtain ⟨s, hs, hsa⟩ := perform_issue_wait c ha
  obtain ⟨t, ht, htb⟩ := perform_issue_wait c hb
  exact ⟨s, t, hs, ht, sameOutcome_of_sameBlock hsa htb (issueAtomic_sameOutcome hdec henc)⟩

end Sys2Proof.Machine
end

section
/-! Proofs for the family `20_memory.md`: the buffers while a transaction is in flight (R31, R40), and the step of the block as the command
in `CMD` (R43). -/

namespace Sys2Proof.Machine

/-! ### The buffers in flight (R31, R40) -/

/-- From `s` to `t` the input buffer of the command in `CMD` is untouched, and its output buffer is only appended to. -/
def BuffersKept (s t : State) : Prop :=
  (dirField s.cmd = .decode → t.raw = s.raw ∧ ∃ more, t.smp = s.smp ++ more) ∧
  (dirField s.cmd = .encode → t.smp = s.smp ∧ ∃ more, t.raw = s.raw ++ more)

theorem buffersKept_refl (s : State) : BuffersKept s s :=
  ⟨fun _ => ⟨rfl, [], (List.append_nil _).symm⟩, fun _ => ⟨rfl, [], (List.append_nil _).symm⟩⟩

/-- `BuffersKept` speaks of the block alone. -/
theorem buffersKept_of_sameBlock {s t u v : State} (hus : SameBlock u s) (htv : SameBlock t v) (h : BuffersKept u v) :
    BuffersKept s t := by
  obtain ⟨hcmd, _, _, _, _, hrawu, hsmpu⟩ := hus
  obtain ⟨_, _, _, _, _, hrawt, hsmpt⟩ := htv
  rw [BuffersKept, ← hcmd, ← hrawu, ← hsmpu, hrawt, hsmpt]
  exact h

theorem blockTurn_buffersKept {s t : State} (h : blockTurn s = .next t) : BuffersKept s t := by
  obtain ⟨_, _, _, _, _, _, hbuffers⟩ := blockTurn_keeps h
  exact hbuffers

/-- R164, R165: while `BUSY` the host's operations other than `RESET` leave the block alone. -/
theorem hostBusy_buffersKept {op : HostOp} {s t : State} (h : hostBusy op s = .next t) (hr : op ≠ .reset) : BuffersKept s t :=
  buffersKept_of_sameBlock (sameBlock_refl s) (hostBusy_sameBlock h hr) (buffersKept_refl s)

/-- Settles O48: a turn of the block keeps the input and appends, and a turn of the host is dropped or reads. -/
theorem inputBufferIsUntouchedInFlight : Obligations.InputBufferIsUntouchedInFlight := by
  intro s t hb h hreset
  obtain ⟨u, hus, hmove⟩ := step_next h
  have hub : u.status = .busy := by
    obtain ⟨_, _, hst, _⟩ := hus
    exact hst.trans hb
  suffices hkept : BuffersKept u t from buffersKept_of_sameBlock hus (sameBlock_refl t) hkept
  rcases hmove with hblock | ⟨op, hop, _, hbusy⟩ | ⟨_, _, hready, _⟩
  · exact blockTurn_buffersKept hblock
  · have hne : op ≠ .reset := by rintro rfl; exact hreset hop
    exact hostBusy_buffersKept hbusy hne
  · exact absurd hub hready

/-! ### The command in flight (R43, R115) -/

/-- Settles O4: whether the turn is pending or nobody's is, a step of the block is `blockTurn`, which is `exec` of the command in `CMD`. -/
theorem stepRunsTheCommandInFlight : Obligations.StepRunsTheCommandInFlight := by
  intro s i hb hi
  have hc : s.cmd = encode i := (decode_ok_iff _ _).mp hi
  have hturn : blockTurn s = exec i s := blockTurn_inFlight hb hc
  refine ⟨hturn, fun hnone => (step_alone hnone).trans hturn, fun rest hpending => ?_⟩
  exact (step_block hpending).trans (blockTurn_inFlight (s := { s with turns := rest }) hb hc)

end Sys2Proof.Machine
end

section
/-! Proofs for the family `30_encoding.md`: the command word and its decoder (R56, R59, R60), what an unsupported width does, and the
pseudo-form `DECA.w` (R64). -/

namespace Sys2Proof.Machine

/-! ### The sixteen command words (R56, R59, R60) -/

/-- R12, R60: the words whose width field is none of 1 to 4. -/
theorem ofField_widthField_eq_none_iff (c : BitVec 4) : Width.ofField (widthField c) = none ↔
    c ∈ [0x0#4, 0x5#4, 0x6#4, 0x7#4, 0x8#4, 0xD#4, 0xE#4, 0xF#4] := by
  revert c; decide

theorem decode_unsupported {c : BitVec 4} (h : Width.ofField (widthField c) = none) :
    decode c = .error (.unsupportedWidth (dirField c) (widthField c)) := by
  simp only [decode, h]

/-- Settles O1: each supported word is the word of its operation, and the width field of each other word names no width. -/
theorem commandWordsSelectTheEightOperations : Obligations.CommandWordsSelectTheEightOperations :=
  ⟨decode_encode .dec1, decode_encode .dec2, decode_encode .dec3, decode_encode .dec4,
    decode_encode .enc1, decode_encode .enc2, decode_encode .enc3, decode_encode .enc4,
    fun c hc => decode_unsupported ((ofField_widthField_eq_none_iff c).mpr hc), decode_ok_iff⟩

/-! ### A command word as a number and in a byte -/

@[simp] theorem decodeValue_toNat (c : BitVec 4) : decodeValue c.toNat = decode c := by
  rw [decodeValue, if_pos c.isLt, BitVec.ofNat_toNat, BitVec.setWidth_eq]

@[simp] theorem decodeByte_setWidth (c : BitVec 4) : decodeByte (c.setWidth 8) = decode c := by
  rw [decodeByte, BitVec.toNat_setWidth_of_le (by decide), decodeValue_toNat]

theorem decodeTableWord_of_ok (nbits : Nat) {w : Nat} {i : Instr} (h : decodeValue w = .ok i) :
    decodeTableWord nbits w = some i := by
  simp only [decodeTableWord, h]

/-- Settles O2: a number, a byte and a row that hold a command word are decoded as the word itself. -/
theorem decodeOfEncodeIsTheInstruction : Obligations.DecodeOfEncodeIsTheInstruction := by
  intro i _
  have hword : decode (encode i) = .ok i := decode_encode i
  have hvalue : decodeValue (encode i).toNat = .ok i := by rw [decodeValue_toNat, hword]
  exact ⟨hword, hvalue, by rw [decodeByte_setWidth, hword], decodeTableWord_of_ok 8 hvalue⟩

/-! ### `ISSUE` of a word, by its fields (R104, R108) -/

theorem hostTurn_issue {s : State} (c : BitVec 4) (hs : s.status ≠ .busy) :
    hostTurn Config.bounds (.issue c) s = issueWord c s := by
  rw [hostTurn_ready hs, hostReady]

theorem issueWord_unsupported {c : BitVec 4} (s : State) (h : Width.ofField (widthField c) = none) :
    issueWord c s = .next (raiseError .unsupportedConfiguration (writeCmd c s)) := by
  simp only [issueWord, decode_unsupported h]

theorem issueWord_decodeWord (w : Width) {s : State} (hs : s.status ≠ .busy) :
    issueWord (commandWord .decode w) s = .next (admitDecode w (writeCmd (commandWord .decode w) s)) := by
  simp only [issueWord, decode_commandWord, exec_decode, runDecode_ready hs]

/-! ### Unsupported widths (R60) -/

/-- R60, R113: a width that no command word can carry. -/
theorem widthFits_eq_false {w : Int} (h : w < 0 ∨ 7 < w) : widthFits w = false := by
  simp only [widthFits, Bool.and_eq_false_iff, decide_eq_false_iff_not]
  omega

/-- Settles O19: the eight words fail the first check of `ISSUE`, and the host functions present no width outside 0 to 7. -/
theorem unsupportedWidthsAreRefused : Obligations.UnsupportedWidthsAreRefused := by
  refine ⟨fun s c hc hs => ?_, fun s raw n w hw => ?_, fun s samples w hw => ?_⟩
  · rw [hostTurn_issue c hs, issueWord_unsupported s ((ofField_widthField_eq_none_iff c).mpr hc)]
    rfl
  · simp [decodeCall, widthFits_eq_false hw]
  · simp [encodeCall, widthFits_eq_false hw]

/-! ### `DECA.w` (R64) -/

/-- R64: on a block that is not `BUSY`, `DECA.w` is the `ISSUE` of its word with the frame count in place. -/
theorem performLine_deca (w : BitVec 3) {s : State} (hs : s.status ≠ .busy) :
    performLine (.deca w) s = issueWord (0#1 ++ w) (setFrameCount (decaCount w s) s) := by
  rw [performLine, hostTurn_ready hs, hostReady, andThen, hostTurn_issue (s := setFrameCount (decaCount w s) s) _ hs]

@[simp] theorem decaCount_field (w : Width) (s : State) : decaCount w.field s = s.raw.length / w.bytes := by
  cases w <;> rfl

theorem widthField_decodeWord (w : BitVec 3) : widthField (0#1 ++ w) = w := by
  revert w; decide

/-- R64: at a supported width `DECA.w` is admitted as a decode of `len(RAW) div w` frames. -/
theorem performLine_deca_supported (w : Width) {s : State} (hs : s.status ≠ .busy) :
    performLine (.deca w.field) s =
      .next (admitDecode w (writeCmd (commandWord .decode w) (setFrameCount (s.raw.length / w.bytes) s))) := by
  rw [performLine_deca _ hs, decaCount_field]
  exact issueWord_decodeWord w (s := setFrameCount _ s) hs

/-- R64, R143: at an unsupported width `DECA.w` ends as its `ISSUE` does, whatever the length of `RAW`. -/
theorem performLine_deca_unsupported {w : BitVec 3} {s : State} (hs : s.status ≠ .busy) (hw : Width.ofField w = none) :
    performLine (.deca w) s =
      .next (raiseError .unsupportedConfiguration (writeCmd (0#1 ++ w) (setFrameCount (decaCount w s) s))) := by
  rw [performLine_deca w hs, issueWord_unsupported _ (by rw [widthField_decodeWord, hw])]

/-- Settles O53: the length check compares `len(RAW)` with `(len(RAW) div w) * w`, which are equal exactly when `w` divides the length. -/
theorem decaSuppliesTheFrameCount : Obligations.DecaSuppliesTheFrameCount := by
  refine ⟨fun s w hs => ⟨_, performLine_deca_supported w hs, ?_⟩,
    fun s w hs hw => ⟨_, performLine_deca_unsupported hs hw, fun h0 => if_pos h0, rfl, rfl⟩⟩
  have hcheck : s.raw.length = s.raw.length / w.bytes * w.bytes ↔ s.raw.length % w.bytes = 0 := by
    rw [eq_comm, ← Nat.dvd_iff_div_mul_eq, Nat.dvd_iff_mod_eq_zero]
  rcases admitDecode_cases w (writeCmd (commandWord .decode w) (setFrameCount (s.raw.length / w.bytes) s)) with
    ⟨hl, ha⟩ | ⟨hl, ha⟩ <;> rw [ha]
  · exact ⟨rfl, rfl, fun _ => ⟨rfl, hl.symm⟩, fun hmod => absurd (hcheck.mp hl) hmod⟩
  · exact ⟨rfl, rfl, fun hmod => absurd (hcheck.mpr hmod) hl, fun _ => ⟨rfl, rfl⟩⟩

end Sys2Proof.Machine
end

section
/-! Proofs for the family `30_encoding.md`: the cells that the decode builds (R57) and the lanes that the encode emits (R58), bit for bit. -/

namespace Sys2Proof.Machine

/-! ### Bit 7 of a byte as bias and as sign -/

/-- R57: with bit 7 flipped, the signed reading of a byte is its unsigned one less the bias. -/
theorem flipBias_toInt (b : Byte) : (b ^^^ 0x80#8).toInt = (b.toNat : Int) - 128 := by
  revert b; decide

/-- R58: modulo 256 the bias is added by flipping bit 7. -/
theorem flipBias_toNat (b : Byte) : (b ^^^ 0x80#8).toNat = (b.toNat + 128) % 256 := by
  revert b; decide

theorem fillByte_eq_msb (b : Byte) : fillByte b = if b.msb then 0xFF#8 else 0x00#8 := by
  rw [fillByte, BitVec.msb_eq_getLsbD_last]

/-! ### The cells of the decode (R57) -/

theorem unpack1_eq_signExtend (b0 : Byte) : unpack1 b0 = (b0 ^^^ 0x80#8).signExtend 32 := by
  apply BitVec.eq_of_toInt_eq
  rw [unpack1_toInt, BitVec.toInt_signExtend_of_le (by decide), flipBias_toInt]

/-- R57: sign extension from 16 bits puts sixteen copies of the upper byte's bit 7 above the group. -/
theorem unpack2_eq_append (b0 b1 : Byte) :
    unpack2 b0 b1 = (if b1.msb then 0xFFFF#16 else 0x0000#16) ++ (b1 ++ b0) := by
  have hmsb : (b1 ++ b0).msb = b1.msb := by rw [BitVec.msb_append, if_neg (by decide)]
  rw [unpack2, BitVec.signExtend_eq_append_of_le (by decide), hmsb]
  rfl

/-- R57: at widths 2 to 4 the cell is the little-endian value of its group, read as a signed number of `8w` bits. -/
theorem unpackGroup_toInt {w : Width} {g : List Byte} (hw : w ≠ .one) (hg : g.length = w.bytes) :
    ∃ v, unpackGroup w g = some v ∧
      v.toInt = if leValue g < 2 ^ (8 * w.bytes - 1) then (leValue g : Int) else (leValue g : Int) - 2 ^ (8 * w.bytes) := by
  cases w with
  | one => exact absurd rfl hw
  | two =>
    obtain ⟨b0, b1, rfl⟩ := List.length_eq_two.mp hg
    refine ⟨_, rfl, ?_⟩
    rw [unpack2_toInt]
    simp [Width.bytes]
  | three =>
    obtain ⟨b0, b1, b2, rfl⟩ := List.length_eq_three.mp hg
    have hle : leValue [b0, b1, b2] = b0.toNat + 256 * b1.toNat + 65536 * b2.toNat := by simp; omega
    exact ⟨_, rfl, by rw [unpack3_toInt, hle]; rfl⟩
  | four =>
    obtain ⟨b0, b1, b2, b3, rfl⟩ := List.length_eq_four.mp hg
    have hle : leValue [b0, b1, b2, b3] = b0.toNat + 256 * b1.toNat + 65536 * b2.toNat + 16777216 * b3.toNat := by simp; omega
    exact ⟨_, rfl, by rw [unpack4_toInt, hle]; rfl⟩

/-- Settles O32: a pattern for each width, the value at width 1, and the value of a group at the others. -/
theorem decodedCellsAreTheStatedPatterns : Obligations.DecodedCellsAreTheStatedPatterns :=
  ⟨fun b0 => congrArg some (unpack1_eq_signExtend b0),
    fun b0 b1 => congrArg some (unpack2_eq_append b0 b1),
    fun b0 b1 b2 => by rw [unpackGroup, unpack3, leWord, fillByte_eq_msb],
    fun _ _ _ _ => rfl,
    fun b0 => congrArg some (unpack1_toInt b0),
    fun _ _ => unpackGroup_toInt⟩

/-! ### The lanes of the encode (R58) -/

/-- R58: adding the bias and wrapping to 8 bits flips bit 7 of the low byte. -/
theorem pack1_eq_flipBias (v : Word) : pack1 v = [v.extractLsb' 0 8 ^^^ 0x80#8] := by
  have hlow : v.toInt % (256 : Nat) = ((v.toNat % 256 : Nat) : Int) := toInt_emod v 256 (by decide)
  have hbyte : BitVec.ofInt 8 (v.toInt + 128) = v.extractLsb' 0 8 ^^^ 0x80#8 := by
    apply BitVec.eq_of_toNat_eq
    rw [BitVec.toNat_ofInt, flipBias_toNat, lane_toNat]
    omega
  rw [pack1, hbyte]

/-- R58: at widths 2 to 4 lane `k` is bits `8k+7` down to `8k` of the cell. -/
theorem packGroup_eq_map {w : Width} (hw : w ≠ .one) (v : Word) :
    packGroup w v = (List.range w.bytes).map fun k => v.extractLsb' (8 * k) 8 := by
  cases w with
  | one => exact absurd rfl hw
  | two => rfl
  | three => rfl
  | four => rfl

theorem packGroup_getElem {w : Width} (hw : w ≠ .one) (v : Word) {k : Nat} (hk : k < w.bytes) :
    (packGroup w v)[k]? = some (v.extractLsb' (8 * k) 8) := by
  rw [packGroup_eq_map hw, List.getElem?_map, List.getElem?_range hk, Option.map_some]

/-- Reducing a number to its low `w` bytes leaves each of those bytes as it was. -/
theorem byte_of_low_bytes (m : Nat) {k w : Nat} (hk : k < w) : m % 2 ^ (8 * w) / 2 ^ (8 * k) % 256 = m / 2 ^ (8 * k) % 256 := by
  have hsplit : 2 ^ (8 * w) = 2 ^ (8 * k) * 2 ^ (8 * (w - k)) := by
    rw [← Nat.pow_add]
    congr 1
    omega
  rw [hsplit, Nat.mod_mul_right_div_self, Nat.mod_mod_of_dvd _ (Nat.pow_dvd_pow 2 (show 8 ≤ 8 * (w - k) by omega))]

/-- Settles O33: the low byte with bit 7 flipped at width 1, and the lanes, each a byte of the cell, at the others. -/
theorem encodedLanesAreTheStatedBits : Obligations.EncodedLanesAreTheStatedBits := by
  refine ⟨pack1_eq_flipBias, fun w v hw => ⟨packGroup_length w v, fun k hk => ⟨_, packGroup_getElem hw v hk, ?_⟩⟩⟩
  rw [lane_toNat, byte_of_low_bytes v.toNat hk]

end Sys2Proof.Machine
end

section
/-! Proofs for the family `40_decode_unpack.md`, one step of a decode: its admission (R108), the frame step at every width (R71) and at
each (R72 to R75), and what it leaves unchanged (R31, R70, R147). -/

namespace Sys2Proof.Machine

/-! ### Admission (R108) -/

theorem admitDecode_of_length {w : Width} {s : State} (hl : s.raw.length = s.frameCount * w.bytes) :
    admitDecode w s = startDecode s := if_pos hl

theorem admitDecode_of_length_ne {w : Width} {s : State} (hl : s.raw.length ≠ s.frameCount * w.bytes) :
    admitDecode w s = raiseError .malformedInput s := if_neg hl

/-- R108: a decode whose length check holds is admitted. -/
theorem exec_decode_admits {w : Width} {s : State} (hb : s.status ≠ .busy) (hl : s.raw.length = w.bytes * s.frameCount) :
    exec (Instr.ofDirWidth .decode w) s =
      .next { s with cmd := commandWord .decode w, smp := [], idx := 0, err := .none, status := .busy } := by
  rw [Nat.mul_comm] at hl
  rw [exec_decode, runDecode_ready hb, admitDecode_of_length (s := writeCmd (commandWord .decode w) s) hl]
  rfl

/-- R108, R142: a decode whose length check fails ends in `MalformedInput`. -/
theorem exec_decode_refuses {w : Width} {s : State} (hb : s.status ≠ .busy) (hl : s.raw.length ≠ w.bytes * s.frameCount) :
    exec (Instr.ofDirWidth .decode w) s =
      .next { s with cmd := commandWord .decode w, status := .error, err := .malformedInput } := by
  rw [Nat.mul_comm] at hl
  rw [exec_decode, runDecode_ready hb, admitDecode_of_length_ne (s := writeCmd (commandWord .decode w) s) hl]
  rfl

/-! ### The frame step (R71) -/

/-- A decode in flight below its frame count, whose group is `g`. -/
theorem exec_decode_frame {w : Width} {s : State} {g : List Byte} {v : Word} (hb : s.status = .busy)
    (hc : s.cmd = commandWord .decode w) (hi : s.idx < s.frameCount) (hl : s.smp.length = s.idx)
    (hg : memRead s.raw (w.bytes * s.idx) w.bytes = some g) (hv : unpackGroup w g = some v) :
    exec (Instr.ofDirWidth .decode w) s = .next { s with smp := s.smp ++ [v], idx := s.idx + 1 } := by
  rw [Nat.mul_comm] at hg
  have hsample : frameSample w s.raw s.idx = some v := by rw [frameSample, hg, Option.bind_some, hv]
  rw [exec_decode, runDecode_inFlight hb hc, decodeBlockStep, if_pos hi, decodeFrame_runs hsample hl]

/-- Settles O14: the length that admission established puts the group inside `RAW`, and a group of `w` bytes converts. -/
theorem decodeFrameConvertsItsGroup : Obligations.DecodeFrameConvertsItsGroup := by
  intro w s hb hc hi hlen hl
  obtain ⟨g, v, hg, hv, _⟩ := frameSample_inside (w := w) (raw := s.raw) (i := s.idx) (hlen ▸ frame_fits hi)
  exact ⟨g, v, memRead_length hg, memRead_cell hg, hv, exec_decode_frame hb hc hi hl (by rwa [Nat.mul_comm]) hv⟩

/-! ### The four widths (R72 to R75) -/

/-- A group is read cell by cell, its first cell in front of the group from the next index on. -/
theorem memRead_succ {α : Type} {buf : List α} {a n : Nat} {x : α} {g : List α} (hx : buf[a]? = some x)
    (hg : memRead buf (a + 1) n = some g) : memRead buf a (n + 1) = some (x :: g) := by
  obtain ⟨ha, rfl⟩ := List.getElem?_eq_some_iff.mp hx
  unfold memRead at hg
  split at hg
  · cases hg
    rw [memRead_inside (by omega), List.drop_eq_getElem_cons ha, List.take_succ_cons]
  · cases hg

/-- Settles O5: the group is the one byte at `IDX`. -/
theorem dec1UnpacksBiasedBytes : Obligations.Dec1UnpacksBiasedBytes := by
  refine ⟨rfl, fun s hb hl => ?_, fun s hb hl => ?_, fun s b0 hb hc hi hl h0 => ⟨unpack1 b0, unpack1_toInt b0, ?_⟩⟩
  · exact exec_decode_admits (w := .one) hb (hl.trans (Nat.one_mul _).symm)
  · exact exec_decode_refuses (w := .one) hb (by rwa [Width.bytes, Nat.one_mul])
  · refine exec_decode_frame (w := .one) (g := [b0]) hb hc hi hl ?_ rfl
    rw [Width.bytes, Nat.one_mul]
    exact memRead_one h0

/-- Settles O6: the value of a two-byte group is `unpack2_toInt`. -/
theorem dec2UnpacksSignedPairs : Obligations.Dec2UnpacksSignedPairs := by
  refine ⟨rfl, fun _ => exec_decode_admits (w := .two), fun _ => exec_decode_refuses (w := .two),
    fun s b0 b1 hb hc hi hl h0 h1 => ⟨unpack2 b0 b1, unpack2_toInt b0 b1, ?_⟩⟩
  exact exec_decode_frame (w := .two) (g := [b0, b1]) hb hc hi hl (memRead_succ h0 (memRead_one h1)) rfl

/-- Settles O7: the fill byte is the top lane of the pattern, and the pattern's value is `unpack3_toInt`. -/
theorem dec3UnpacksThroughTheFillByte : Obligations.Dec3UnpacksThroughTheFillByte := by
  refine ⟨rfl, fun _ => exec_decode_admits (w := .three), fun _ => exec_decode_refuses (w := .three),
    fun s b0 b1 b2 hb hc hi hl h0 h1 h2 => ⟨unpack3 b0 b1 b2, ?_, unpack3_toInt b0 b1 b2, ?_⟩⟩
  · rw [unpack3, leWord_toNat, fillByte_toNat]
  · exact exec_decode_frame (w := .three) (g := [b0, b1, b2]) hb hc hi hl
      (memRead_succ h0 (memRead_succ h1 (memRead_one h2))) rfl

/-- Settles O8: the pattern of the cell is the group itself. -/
theorem dec4UnpacksSignedQuads : Obligations.Dec4UnpacksSignedQuads := by
  refine ⟨rfl, fun _ => exec_decode_admits (w := .four), fun _ => exec_decode_refuses (w := .four),
    fun s b0 b1 b2 b3 hb hc hi hl h0 h1 h2 h3 => ⟨unpack4 b0 b1 b2 b3, leWord_toNat b0 b1 b2 b3, ?_⟩⟩
  exact exec_decode_frame (w := .four) (g := [b0, b1, b2, b3]) hb hc hi hl
    (memRead_succ h0 (memRead_succ h1 (memRead_succ h2 (memRead_one h3)))) rfl

/-! ### The frame of a decode (R31, R70, R147) -/

/-- Everything a decode can do when it answers a next state: in flight it converts a frame or completes, and it is dropped while another
command is in flight; on a block that is not `BUSY` it is admitted or refused. -/
theorem runDecode_next {w : Width} {s t : State} (h : runDecode w s = .next t) :
    (s.status = .busy ∧
      ((∃ v, s.idx = s.smp.length ∧ t = { s with smp := s.smp ++ [v], idx := s.idx + 1 }) ∨ t = complete s ∨ t = s)) ∨
    (s.status ≠ .busy ∧ (t = startDecode (writeCmd (commandWord .decode w) s) ∨
      t = raiseError .malformedInput (writeCmd (commandWord .decode w) s))) := by
  by_cases hb : s.status = .busy
  · refine .inl ⟨hb, ?_⟩
    by_cases hc : s.cmd = commandWord .decode w
    · rw [runDecode_inFlight hb hc] at h
      rcases decodeBlockStep_next h with ⟨_, _, v, _, _, hi, ht⟩ | ⟨_, ht⟩
      · exact .inl ⟨v, hi, ht⟩
      · exact .inr (.inl ht)
    · rw [runDecode_dropped hb hc] at h
      cases h
      exact .inr (.inr rfl)
  · refine .inr ⟨hb, ?_⟩
    rw [runDecode_ready hb] at h
    cases h
    rcases admitDecode_cases w (writeCmd (commandWord .decode w) s) with ⟨_, ha⟩ | ⟨_, ha⟩
    · exact .inl ha
    · exact .inr ha

/-- An append of one cell leaves every other index as it was. -/
theorem getElem?_append_singleton_of_ne {α : Type} {buf : List α} (x : α) {a : Nat} (ha : a ≠ buf.length) :
    (buf ++ [x])[a]? = buf[a]? := by
  rcases Nat.lt_or_gt_of_ne ha with hlt | hgt
  · exact List.getElem?_append_left hlt
  · rw [List.getElem?_eq_none hgt.le, List.getElem?_eq_none (by simpa using hgt)]

/-- Settles O16: a frame step appends one cell, a completion and a dropped command no cell; an admission and a refusal write `CMD`. -/
theorem decodeFamilyFrame : Obligations.DecodeFamilyFrame := by
  intro i s t hd h
  have hword : encode i = commandWord .decode i.width := by rw [encode, hd]
  rw [exec_of_decode hd] at h
  rw [hword]
  rcases runDecode_next h with ⟨hb, hmove⟩ | ⟨hb, hend⟩
  · rcases hmove with ⟨v, hi, rfl⟩ | rfl | rfl <;>
      refine ⟨rfl, rfl, rfl, rfl, fun _ => rfl, fun _ => ⟨rfl, rfl, fun a ha => ?_⟩, fun hn => absurd hb hn, fun hn => absurd hb hn⟩
    · exact getElem?_append_singleton_of_ne v (hi ▸ ha)
    · rfl
    · rfl
  · rcases hend with rfl | rfl <;>
      refine ⟨rfl, rfl, rfl, rfl, fun _ => rfl, fun hbusy => absurd hbusy hb, fun _ => rfl, fun _ herr => ?_⟩
    · cases herr
    · exact ⟨rfl, fun _ => rfl⟩

end Sys2Proof.Machine
end

section
/-! Proofs for the family `40_decode_unpack.md`: at each width the conversion is a bijection between groups and the signed range (R77).
A group and its sample have one number in common, the little-endian value of the group: it fixes the group among those of its length,
and the sample within the range. -/

namespace Sys2Proof.Machine

/-! ### The little-endian value of a group -/

/-- Groups of one length with the same little-endian value are the same group. -/
theorem leValue_inj {g h : List Byte} (hlen : g.length = h.length) (hv : leValue g = leValue h) : g = h := by
  induction g generalizing h with
  | nil => exact (List.length_eq_zero_iff.mp hlen.symm).symm
  | cons b g ih =>
    cases h with
    | nil => cases hlen
    | cons c h =>
      simp only [leValue_cons] at hv
      have hb := b.isLt
      have hc := c.isLt
      rw [BitVec.eq_of_toNat_eq (show b.toNat = c.toNat by omega), ih (Nat.succ.inj hlen) (by omega)]

theorem leValue_lt (g : List Byte) : leValue g < 2 ^ (8 * g.length) := by
  induction g with
  | nil => decide
  | cons b g ih =>
    have hpow : 2 ^ (8 * (b :: g).length) = 256 * 2 ^ (8 * g.length) := by
      rw [List.length_cons, Nat.mul_succ, Nat.pow_add, Nat.mul_comm]
    rw [leValue_cons, hpow]
    have hb := b.isLt
    omega

/-! ### What a group and its sample have in common -/

/-- The bias between a sample and its group: 128 at width 1 (R72, R87), none at the others. -/
def widthBias : Width → Int
  | .one => 128
  | _ => 0

theorem widthBias_eq_zero {w : Width} (hw : w ≠ .one) : widthBias w = 0 := by
  cases w with
  | one => exact absurd rfl hw
  | two | three | four => rfl

/-- The residue of a sample modulo `2^(8w)`, its bias added: the value of its group (`unpackGroup_residue`, `packGroup_residue`). -/
def groupResidue (w : Width) (x : Int) : Int :=
  (x + widthBias w) % 2 ^ (8 * w.bytes)

/-- Two samples in the range of a width with the same residue are the same. -/
theorem groupResidue_inj {w : Width} {x y : Int} (hx : inRange w x) (hy : inRange w y) (h : groupResidue w x = groupResidue w y) :
    x = y := by
  unfold inRange at hx hy
  unfold groupResidue at h
  cases w <;>
    simp only [widthBias, Width.bytes] at hx hy h <;>
    omega

/-- R72 to R75: a group converts into the range of its width, its value being the residue of the sample. -/
theorem unpackGroup_residue {w : Width} {g : List Byte} (hg : g.length = w.bytes) :
    ∃ v, unpackGroup w g = some v ∧ inRange w v.toInt ∧ groupResidue w v.toInt = leValue g := by
  have hlt : leValue g < 2 ^ (8 * w.bytes) := hg ▸ leValue_lt g
  cases w with
  | one =>
    obtain ⟨b0, rfl⟩ := List.length_eq_one_iff.mp hg
    have hb := b0.isLt
    refine ⟨unpack1 b0, rfl, ?_⟩
    simp only [unpack1_toInt, inRange, groupResidue, widthBias, Width.bytes, leValue_cons, leValue_nil]
    omega
  | two | three | four =>
    obtain ⟨v, hv, hval⟩ := unpackGroup_toInt (by decide) hg
    refine ⟨v, hv, ?_⟩
    simp only [inRange, groupResidue, widthBias, Width.bytes] at hlt hval ⊢
    omega

/-- R88 to R90: at widths 2 to 4 the group of a sample holds the low bytes of its cell. -/
theorem leValue_packGroup {w : Width} (hw : w ≠ .one) (v : Word) : leValue (packGroup w v) = v.toNat % 2 ^ (8 * w.bytes) := by
  cases w with
  | one => exact absurd rfl hw
  | two | three | four =>
    simp only [packGroup, pack2, pack3, pack4, leValue_cons, leValue_nil, lane_toNat, Width.bytes]
    omega

/-- R87 to R90: the value of the group that a sample is packed into is the residue of the sample. -/
theorem packGroup_residue (w : Width) (v : Word) : groupResidue w v.toInt = leValue (packGroup w v) := by
  by_cases hw : w = .one
  · subst hw
    simp only [groupResidue, widthBias, Width.bytes, packGroup, pack1, leValue_cons, leValue_nil, BitVec.toNat_ofInt]
    omega
  · have hdvd : 2 ^ (8 * w.bytes) ∣ 2 ^ 32 := Nat.pow_dvd_pow 2 (by have := width_bytes_le_four w; omega)
    have hmod := toInt_emod v (2 ^ (8 * w.bytes)) hdvd
    rw [groupResidue, widthBias_eq_zero hw, Int.add_zero, leValue_packGroup hw, ← hmod, Nat.cast_pow, Nat.cast_ofNat]

/-! ### The bijection (R77) -/

/-- R77: packing the sample of a group gives the group back. -/
theorem packGroup_of_unpackGroup {w : Width} {g : List Byte} {v : Word} (h : unpackGroup w g = some v) : packGroup w v = g := by
  have hg : g.length = w.bytes := unpackGroup_isSome.mp ⟨v, h⟩
  obtain ⟨u, hu, _, hres⟩ := unpackGroup_residue hg
  cases hu.symm.trans h
  rw [packGroup_residue] at hres
  exact leValue_inj (by rw [packGroup_length, hg]) (by exact_mod_cast hres)

/-- R77: a sample in the range of the width comes back from the group it is packed into. -/
theorem unpackGroup_packGroup {w : Width} {v : Word} (hv : inRange w v.toInt) : unpackGroup w (packGroup w v) = some v := by
  obtain ⟨u, hu, hrange, hres⟩ := unpackGroup_residue (packGroup_length w v)
  rw [hu, BitVec.eq_of_toInt_eq (groupResidue_inj hrange hv (hres.trans (packGroup_residue w v).symm))]

/-- R77: every integer in the range of a width is the value of a cell. -/
theorem toInt_ofInt_of_inRange {w : Width} {x : Int} (hx : inRange w x) : (BitVec.ofInt 32 x).toInt = x := by
  obtain ⟨hlo, hhi⟩ := hx
  have hpow : (2 : Int) ^ (8 * w.bytes - 1) ≤ 2 ^ 31 :=
    pow_le_pow_right₀ (by decide) (by have := width_bytes_le_four w; omega)
  exact BitVec.toInt_ofInt_eq_self (by decide) (by omega) (by omega)

/-- Settles O34: `packGroup` is the inverse of the conversion on both sides. -/
theorem unpackIsABijectionOntoTheRange : Obligations.UnpackIsABijectionOntoTheRange := by
  refine ⟨fun w g hg => ?_, fun w x hx => ?_⟩
  · obtain ⟨v, hv, hrange, _⟩ := unpackGroup_residue hg
    exact ⟨v, hv, hrange, packGroup_of_unpackGroup hv⟩
  · have hcell := toInt_ofInt_of_inRange hx
    have hgroup : unpackGroup w (packGroup w (BitVec.ofInt 32 x)) = some (BitVec.ofInt 32 x) :=
      unpackGroup_packGroup (by rwa [hcell])
    refine ⟨_, packGroup_length w _, by rw [hgroup, Option.map_some, hcell], fun h hh => ?_⟩
    obtain ⟨v, hv, rfl⟩ := Option.map_eq_some_iff.mp hh
    rw [← packGroup_of_unpackGroup hv, BitVec.ofInt_toInt]

end Sys2Proof.Machine
end

section
/-! Proofs for the family `40_decode_unpack.md`: the transaction of a decode, from its `ISSUE` to `DONE` (R70, R76). -/

namespace Sys2Proof.Machine

/-! ### The function `decode` (R76) -/

@[simp] theorem decodeBuffer_nil (w : Width) : decodeBuffer [] 0 w = some [] := by
  rw [decodeBuffer, if_pos (by rw [Nat.zero_mul, List.length_nil]), decodePrefix]

/-- R76: inside an admitted buffer the sample of a frame is the conversion of its own group. -/
theorem frameSample_eq_group {w : Width} {raw : List Byte} {n i : Nat} (hl : raw.length = n * w.bytes) (hi : i < n) :
    ∃ v, unpackGroup w ((raw.drop (i * w.bytes)).take w.bytes) = some v ∧ frameSample w raw i = some v := by
  have hfits : i * w.bytes + w.bytes ≤ raw.length := hl ▸ frame_fits hi
  obtain ⟨g, v, hg, hv, hsample⟩ := frameSample_inside hfits
  cases hg.symm.trans (memRead_inside hfits)
  exact ⟨v, hv, hsample⟩

/-- R76: an admitted buffer converts, sample `i` from group `i` alone. -/
theorem decodeBuffer_samples {w : Width} {raw : List Byte} {n : Nat} (hl : raw.length = n * w.bytes) :
    ∃ out, decodeBuffer raw n w = some out ∧ out.length = n ∧
      ∀ i, i < n → ∃ v, unpackGroup w ((raw.drop (i * w.bytes)).take w.bytes) = some v ∧ out[i]? = some v := by
  obtain ⟨out, ho, hp, hlen⟩ := decodeBuffer_of_length hl
  refine ⟨out, ho, hlen, fun i hi => ?_⟩
  obtain ⟨v, hv, hsample⟩ := frameSample_eq_group hl hi
  exact ⟨v, hv, (decodePrefix_get hp i hi).trans hsample⟩

/-! ### A transaction with no host turn pending (R109, R110, R115) -/

/-- With no turn pending, a transaction in flight with `k` frames to convert ends, `k + 1` steps on, where the atomic transaction does. -/
theorem run_inFlight (k : Nat) {s : State} (hs : Inv s) (hb : s.status = .busy) (ht : s.turns = []) (hk : s.idx + k = frames s) :
    run (k + 1) s = .next (issueAtomic s.cmd s) := by
  induction k generalizing s with
  | zero =>
    rcases blockTurn_of_inv hs hb with ⟨_, _, hframe⟩ | ⟨hi, hc⟩
    · exact absurd hframe.below (by omega)
    · rw [run_succ ((step_alone ht).trans hc), run_zero, complete_eq_issueAtomic hs hb hi]
  | succ k ih =>
    rcases blockTurn_of_inv hs hb with ⟨u, hu, hframe⟩ | ⟨hi, _⟩
    · obtain ⟨_, _, _, hturns, _⟩ := blockTurn_keeps hu
      have hleft : u.idx + k = frames u := by rw [hframe.idx, hframe.frames_eq]; omega
      rw [run_succ ((step_alone ht).trans hu), ih hframe.inv hframe.busy (hturns.trans ht) hleft, hframe.atomic]
    · omega

/-- A step whose only pending turn is an `ISSUE`, on a block that is not `BUSY`. -/
theorem step_only_issue {s : State} (c : BitVec 4) (hb : s.status ≠ .busy) (ht : s.turns = []) :
    step { s with turns := [.host (.issue c)] } = issueWord c s := by
  have hspent : { s with turns := [] } = s := by rw [← ht]
  rw [step_issue (s := { s with turns := [.host (.issue c)] }) hb rfl, hspent]

/-- An `ISSUE` that is admitted in `t`, with no other turn pending, ends after its own step, the frame steps and `COMPLETE`. -/
theorem run_issue_admitted {c : BitVec 4} {s t : State} (hb : s.status ≠ .busy) (ht : s.turns = []) (hissue : issueWord c s = .next t)
    (hadm : Admitted c s t) (htt : t.turns = []) :
    run (frames t + 2) { s with turns := [.host (.issue c)] } = .next (issueAtomic c s) := by
  have hleft : t.idx + frames t = frames t := by rw [hadm.idx, Nat.zero_add]
  rw [run_succ ((step_only_issue c hb ht).trans hissue), run_inFlight (frames t) hadm.inv hadm.busy htt hleft, hadm.cmd, hadm.atomic]

/-! ### The transaction of a decode (R70, R108) -/

/-- R108: a decode whose length check holds is admitted. -/
theorem issueWord_admits_decode {w : Width} {s : State} (hb : s.status ≠ .busy) (hl : s.raw.length = s.frameCount * w.bytes) :
    issueWord (commandWord .decode w) s = .next (startDecode (writeCmd (commandWord .decode w) s)) := by
  rw [issueWord_decodeWord w hb, admitDecode_of_length (s := writeCmd (commandWord .decode w) s) hl]

/-- R70: the transaction of an admitted decode takes the step of its `ISSUE`, one per frame, and `COMPLETE`. -/
theorem run_decode {w : Width} {s : State} (hb : s.status ≠ .busy) (ht : s.turns = []) (hl : s.raw.length = s.frameCount * w.bytes) :
    run (s.frameCount + 2) { s with turns := [.host (.issue (commandWord .decode w))] } =
      .next (issueAtomic (commandWord .decode w) s) := by
  have hframes : frames (startDecode (writeCmd (commandWord .decode w) s)) = s.frameCount := frames_of_decode rfl
  have hrun := run_issue_admitted hb ht (issueWord_admits_decode hb hl) (admitted_decode hl) ht
  rwa [hframes] at hrun

/-- Settles O29: the function frame by frame, and the run of a transaction, which ends in the state of the atomic one. -/
theorem decodeTransactionComputesDecode : Obligations.DecodeTransactionComputesDecode := by
  refine ⟨fun _ _ _ => decodeBuffer_malformed, decodeBuffer_nil, fun _ _ _ => decodeBuffer_samples, fun w s hb ht hl => ?_⟩
  obtain ⟨out, ho, _, hlen⟩ := decodeBuffer_of_length hl
  have hrun := run_decode hb ht hl
  rw [issueAtomic_decode ho] at hrun
  exact ⟨_, hrun, rfl, ho, hlen, rfl, rfl⟩

end Sys2Proof.Machine
end

section
/-! Proofs for the family `41_encode_pack.md`: the transaction of an encode, from its `ISSUE` to `DONE` (R85, R91), and its refusal at an
unsupported width (R60). -/

namespace Sys2Proof.Machine

/-- R85, R108: an encode of a supported width is always admitted. -/
theorem issueWord_encodeWord (w : Width) {s : State} (hb : s.status ≠ .busy) :
    issueWord (commandWord .encode w) s = .next (startEncode (writeCmd (commandWord .encode w) s)) := by
  simp only [issueWord, decode_commandWord, exec_encode, runEncode_ready hb, admitEncode]

/-- R91: the transaction of an encode takes the step of its `ISSUE`, one per sample, and `COMPLETE`. -/
theorem run_encode (w : Width) {s : State} (hb : s.status ≠ .busy) (ht : s.turns = []) :
    run (s.smp.length + 2) { s with turns := [.host (.issue (commandWord .encode w))] } =
      .next (issueAtomic (commandWord .encode w) s) := by
  have hframes : frames (startEncode (writeCmd (commandWord .encode w) s)) = s.smp.length := frames_of_encode rfl
  have hrun := run_issue_admitted hb ht (issueWord_encodeWord w hb) (admitted_encode w s) ht
  rwa [hframes] at hrun

/-- R60: the encode words whose width field is none of 1 to 4. -/
theorem ofField_encodeWord_eq_none {c : BitVec 4} (hc : c ∈ [0x8#4, 0xD#4, 0xE#4, 0xF#4]) :
    Width.ofField (widthField c) = none :=
  (ofField_widthField_eq_none_iff c).mpr (List.mem_append_right [0x0#4, 0x5#4, 0x6#4, 0x7#4] hc)

/-- Settles O30: the run of a transaction ends in the state of the atomic one, whose `RAW` is the function; an unsupported word is refused in
the step of its `ISSUE`, which leaves `RAW` alone. -/
theorem encodeTransactionComputesEncode : Obligations.EncodeTransactionComputesEncode := by
  refine ⟨encodeBuffer_nil, encodeBuffer_cons, fun w s hb ht => ?_, fun s c rest hb hc hturns => ?_⟩
  · have hrun := run_encode w hb ht
    rw [issueAtomic_encode] at hrun
    exact ⟨_, hrun, rfl, rfl, rfl⟩
  · have hstep := step_issue hb hturns
    rw [issueWord_unsupported _ (ofField_encodeWord_eq_none hc)] at hstep
    exact ⟨_, hstep, rfl, rfl, rfl⟩

end Sys2Proof.Machine
end

section
/-! Proofs for the family `41_encode_pack.md`, one step of an encode: its admission (R85, R108), the frame step at every width (R86) and at
each (R87 to R90), and what it leaves unchanged (R31, R85). -/

namespace Sys2Proof.Machine

/-! ### Admission and the frame step (R85, R86) -/

/-- R85, R108: on a block that is not `BUSY` an encode is always admitted. -/
theorem exec_encode_admits (w : Width) {s : State} (hb : s.status ≠ .busy) :
    exec (Instr.ofDirWidth .encode w) s =
      .next { s with cmd := commandWord .encode w, raw := [], idx := 0, err := .none, status := .busy } := by
  rw [exec_encode, runEncode_ready hb]
  rfl

/-- R86: an encode in flight whose sample at `IDX` is `v`. -/
theorem exec_encode_frame {w : Width} {s : State} {v : Word} (hb : s.status = .busy) (hc : s.cmd = commandWord .encode w)
    (hv : s.smp[s.idx]? = some v) (hl : s.raw.length = w.bytes * s.idx) :
    exec (Instr.ofDirWidth .encode w) s = .next { s with raw := s.raw ++ packGroup w v, idx := s.idx + 1 } := by
  obtain ⟨hi, _⟩ := List.getElem?_eq_some_iff.mp hv
  rw [Nat.mul_comm] at hl
  rw [exec_encode, runEncode_inFlight hb hc, encodeBlockStep, if_pos hi, encodeFrame_runs hv hl]

/-- Settles O15: the sample at `IDX` exists, and lane `k` of its group is `k` places past the end of `RAW`, which is at `IDX * w`. -/
theorem encodeFrameConvertsItsSample : Obligations.EncodeFrameConvertsItsSample := by
  intro w s hb hc hi hl
  have hv : s.smp[s.idx]? = some s.smp[s.idx] := List.getElem?_eq_getElem hi
  refine ⟨_, _, hv, packGroup_length w _, exec_encode_frame hb hc hv (by rwa [Nat.mul_comm]), rfl, fun k _ => ?_⟩
  rw [readRaw, ← hl, List.getElem?_append_right (Nat.le_add_right _ _), Nat.add_sub_cancel_left]

/-! ### The four widths (R87 to R90) -/

/-- Settles O9: reduction modulo 256 is what `pack1` makes of the biased sample. -/
theorem enc1PacksBiasedBytes : Obligations.Enc1PacksBiasedBytes := by
  refine ⟨rfl, fun _ => exec_encode_admits .one, fun s v hb hc hv hl => ⟨BitVec.ofInt 8 (v.toInt + 128), ?_, ?_⟩⟩
  · rw [BitVec.toNat_ofInt]
    omega
  · exact exec_encode_frame (w := .one) hb hc hv (hl.trans (Nat.one_mul _).symm)

/-- Settles O10: the signed and the unsigned reading of a cell agree modulo 65536, so its two low lanes are those of the residue. -/
theorem enc2PacksTheLowPair : Obligations.Enc2PacksTheLowPair := by
  refine ⟨rfl, fun _ => exec_encode_admits .two, fun s v hb hc hv hl => ⟨v.extractLsb' 0 8, v.extractLsb' 8 8, ?_⟩⟩
  have hlow : v.toInt % 65536 = ((v.toNat % 65536 : Nat) : Int) := toInt_emod v 65536 (by decide)
  rw [hlow, lane_toNat, lane_toNat]
  exact ⟨by omega, by omega, exec_encode_frame (w := .two) hb hc hv hl⟩

/-- Settles O11: as at width 2, modulo 16777216. -/
theorem enc3PacksTheLowThreeLanes : Obligations.Enc3PacksTheLowThreeLanes := by
  refine ⟨rfl, fun _ => exec_encode_admits .three,
    fun s v hb hc hv hl => ⟨v.extractLsb' 0 8, v.extractLsb' 8 8, v.extractLsb' 16 8, ?_⟩⟩
  have hlow : v.toInt % 16777216 = ((v.toNat % 16777216 : Nat) : Int) := toInt_emod v 16777216 (by decide)
  rw [hlow, lane_toNat, lane_toNat, lane_toNat]
  exact ⟨by omega, by omega, by omega, exec_encode_frame (w := .three) hb hc hv hl⟩

/-- Settles O12: the four lanes are all of the cell's 32 bits. -/
theorem enc4PacksAllFourLanes : Obligations.Enc4PacksAllFourLanes := by
  refine ⟨rfl, fun _ => exec_encode_admits .four,
    fun s v hb hc hv hl => ⟨v.extractLsb' 0 8, v.extractLsb' 8 8, v.extractLsb' 16 8, v.extractLsb' 24 8, ?_⟩⟩
  have hcell := v.isLt
  rw [lane_toNat, lane_toNat, lane_toNat, lane_toNat]
  exact ⟨by omega, by omega, by omega, by omega, exec_encode_frame (w := .four) hb hc hv hl⟩

/-! ### The frame of an encode (R31, R85) -/

/-- Everything an encode can do when it answers a next state: in flight it converts a sample or completes, and it is dropped while another
command is in flight; on a block that is not `BUSY` it is admitted. -/
theorem runEncode_next {w : Width} {s t : State} (h : runEncode w s = .next t) :
    (s.status = .busy ∧
      ((∃ v, s.idx * w.bytes = s.raw.length ∧ t = { s with raw := s.raw ++ packGroup w v, idx := s.idx + 1 }) ∨
        t = complete s ∨ t = s)) ∨
    (s.status ≠ .busy ∧ t = startEncode (writeCmd (commandWord .encode w) s)) := by
  by_cases hb : s.status = .busy
  · refine .inl ⟨hb, ?_⟩
    by_cases hc : s.cmd = commandWord .encode w
    · rw [runEncode_inFlight hb hc] at h
      rcases encodeBlockStep_next h with ⟨_, v, _, hl, ht⟩ | ⟨_, ht⟩
      · exact .inl ⟨v, hl, ht⟩
      · exact .inr (.inl ht)
    · rw [runEncode_dropped hb hc] at h
      cases h
      exact .inr (.inr rfl)
  · rw [runEncode_ready hb] at h
    cases h
    exact .inr ⟨hb, rfl⟩

/-- An append leaves every index outside the appended cells as it was. -/
theorem getElem?_append_of_outside {α : Type} {buf cells : List α} {a : Nat}
    (ha : a < buf.length ∨ buf.length + cells.length ≤ a) : (buf ++ cells)[a]? = buf[a]? := by
  rcases ha with hlt | hge
  · exact List.getElem?_append_left hlt
  · rw [List.getElem?_eq_none (by rwa [List.length_append]), List.getElem?_eq_none (by omega)]

/-- Settles O17: a frame step appends the bytes of one sample, a completion and a dropped command none; an admission writes `CMD` and leaves
the block `BUSY`. -/
theorem encodeFamilyFrame : Obligations.EncodeFamilyFrame := by
  intro i s t hd h
  have hword : encode i = commandWord .encode i.width := by rw [encode, hd]
  rw [exec_of_encode hd] at h
  rw [hword]
  rcases runEncode_next h with ⟨hb, hmove⟩ | ⟨hb, rfl⟩
  · rcases hmove with ⟨v, hl, rfl⟩ | rfl | rfl <;>
      refine ⟨rfl, rfl, rfl, rfl, fun _ => rfl, fun _ => ⟨rfl, rfl, fun a ha => ?_⟩, fun hn => absurd hb hn⟩
    · rw [hl, ← packGroup_length i.width v] at ha
      exact getElem?_append_of_outside ha
    · rfl
    · rfl
  · exact ⟨rfl, rfl, rfl, rfl, fun _ => rfl, fun hbusy => absurd hbusy hb, fun _ => ⟨rfl, by simp⟩⟩

end Sys2Proof.Machine
end

section
/-! Proofs for the family `41_encode_pack.md`: the length of an encode (R92), and encode and decode after each other (R93, R94). -/

namespace Sys2Proof.Machine

/-! ### The length (R92) -/

/-- Settles O35: the length of an encode is the one that the decode of as many frames admits. -/
theorem encodedLengthIsFramesTimesWidth : Obligations.EncodedLengthIsFramesTimesWidth := by
  intro smp w
  have hl := encodeBuffer_length smp w
  obtain ⟨out, ho, _⟩ := decodeBuffer_of_length hl
  exact ⟨hl, by rw [ho, Option.isSome_some]⟩

/-! ### Wrapping to a width (R7) -/

theorem wrapInt_inRange (w : Width) (x : Int) : inRange w (wrapInt w x) := by
  unfold inRange wrapInt
  cases w <;>
    simp only [Width.bytes] <;>
    omega

/-- Wrapping to a width keeps the residue that makes the group. -/
theorem groupResidue_wrapInt (w : Width) (x : Int) : groupResidue w (wrapInt w x) = groupResidue w x := by
  unfold groupResidue wrapInt
  cases w <;>
    simp only [widthBias, Width.bytes] <;>
    omega

/-- A sample in the range of the width wraps to itself. -/
theorem wrapInt_of_inRange {w : Width} {x : Int} (hx : inRange w x) : wrapInt w x = x :=
  groupResidue_inj (wrapInt_inRange w x) hx (groupResidue_wrapInt w x)

/-! ### Decode after encode (R93) -/

/-- R93: the sample of a packed group and the wrapped sample are both in the range, with the residue of the sample. -/
theorem unpackGroup_packGroup_toInt (w : Width) (v : Word) :
    (unpackGroup w (packGroup w v)).map BitVec.toInt = some (wrapInt w v.toInt) := by
  obtain ⟨u, hu, hrange, hres⟩ := unpackGroup_residue (packGroup_length w v)
  have hwrap : groupResidue w u.toInt = groupResidue w (wrapInt w v.toInt) := by
    rw [hres, ← packGroup_residue, groupResidue_wrapInt]
  rw [hu, Option.map_some, groupResidue_inj hrange (wrapInt_inRange w _) hwrap]

/-- A read of exactly the middle of three parts of a buffer. -/
theorem memRead_middle {α : Type} (before g after : List α) :
    memRead (before ++ (g ++ after)) before.length g.length = some g := by
  rw [memRead_inside (by simp only [List.length_append]; omega), List.drop_left, List.take_left]

/-- R91: frame `i` of an encode is the group of sample `i`. -/
theorem memRead_encodeBuffer {w : Width} {smp : List Word} {i : Nat} {v : Word} (hv : smp[i]? = some v) :
    memRead (encodeBuffer smp w) (i * w.bytes) w.bytes = some (packGroup w v) := by
  obtain ⟨hi, rfl⟩ := List.getElem?_eq_some_iff.mp hv
  have hsplit : encodeBuffer smp w =
      encodeBuffer (smp.take i) w ++ (packGroup w smp[i] ++ encodeBuffer (smp.drop (i + 1)) w) := by
    rw [← encodeBuffer_cons, ← encodeBuffer_append, ← List.drop_eq_getElem_cons hi, List.take_append_drop]
  have hbefore : (encodeBuffer (smp.take i) w).length = i * w.bytes := by
    rw [encodeBuffer_length, List.length_take_of_le hi.le]
  have hread := memRead_middle (encodeBuffer (smp.take i) w) (packGroup w smp[i]) (encodeBuffer (smp.drop (i + 1)) w)
  rwa [← hsplit, hbefore, packGroup_length] at hread

/-- R93: the decode of an encode wraps every sample. -/
theorem decodeBuffer_encodeBuffer (w : Width) (smp : List Word) :
    ∃ out, decodeBuffer (encodeBuffer smp w) smp.length w = some out ∧
      out.map BitVec.toInt = smp.map (fun v => wrapInt w v.toInt) := by
  obtain ⟨out, ho, hp, hlen⟩ := decodeBuffer_of_length (encodeBuffer_length smp w)
  refine ⟨out, ho, List.ext_getElem? fun i => ?_⟩
  rw [List.getElem?_map, List.getElem?_map]
  by_cases hi : i < smp.length
  · have hv : smp[i]? = some smp[i] := List.getElem?_eq_getElem hi
    rw [decodePrefix_get hp i hi, frameSample, memRead_encodeBuffer hv, Option.bind_some, unpackGroup_packGroup_toInt, hv,
      Option.map_some]
  · rw [List.getElem?_eq_none (by omega), List.getElem?_eq_none (by omega), Option.map_none, Option.map_none]

/-- Settles O36. -/
theorem decodeAfterEncodeWraps : Obligations.DecodeAfterEncodeWraps :=
  ⟨unpackGroup_packGroup_toInt, fun _ _ => wrapInt_of_inRange, decodeBuffer_encodeBuffer⟩

/-! ### Encode after decode (R94) -/

theorem memRead_some {α : Type} {buf g : List α} {addr n : Nat} (h : memRead buf addr n = some g) :
    (buf.drop addr).take n = g := by
  unfold memRead at h
  split at h
  · exact Option.some.inj h
  · cases h

/-- Packing the sample of a frame gives the bytes of the frame. -/
theorem packGroup_of_frameSample {w : Width} {raw : List Byte} {i : Nat} {v : Word} (h : frameSample w raw i = some v) :
    packGroup w v = (raw.drop (i * w.bytes)).take w.bytes := by
  obtain ⟨g, hg, hv⟩ := Option.bind_eq_some_iff.mp h
  rw [packGroup_of_unpackGroup hv, memRead_some hg]

/-- R94: the encode of the first `n` frames of a buffer is the bytes of those frames. -/
theorem encodeBuffer_decodePrefix {w : Width} {raw : List Byte} {n : Nat} {out : List Word}
    (h : decodePrefix w raw n = some out) : encodeBuffer out w = raw.take (n * w.bytes) := by
  induction n generalizing out with
  | zero =>
    cases h
    rw [encodeBuffer_nil, Nat.zero_mul, List.take_zero]
  | succ n ih =>
    obtain ⟨before, v, hb, hv, rfl⟩ := decodePrefix_succ_inv h
    rw [encodeBuffer_append, ih hb, encodeBuffer_cons, encodeBuffer_nil, List.append_nil, packGroup_of_frameSample hv, Nat.succ_mul,
      List.take_add]

theorem decodeBuffer_some {w : Width} {raw : List Byte} {n : Nat} {out : List Word} (h : decodeBuffer raw n w = some out) :
    raw.length = n * w.bytes ∧ decodePrefix w raw n = some out := by
  unfold decodeBuffer at h
  split at h
  · exact ⟨‹_›, h⟩
  · cases h

/-- Settles O37: a group by the bijection of R77, and a buffer frame by frame, its length admitting no other byte. -/
theorem encodeAfterDecodeIsExact : Obligations.EncodeAfterDecodeIsExact := by
  refine ⟨fun w g hg => ?_, fun w raw n smp h => ?_⟩
  · obtain ⟨v, hv⟩ := unpackGroup_isSome.mpr hg
    rw [hv, Option.map_some, packGroup_of_unpackGroup hv]
  · obtain ⟨hl, hp⟩ := decodeBuffer_some h
    rw [encodeBuffer_decodePrefix hp, ← hl, List.take_length]

end Sys2Proof.Machine
end

section
/-! Proofs for the family `42_transaction_control.md`, one step: the host operations (R100 to R107), the two checks of `ISSUE` (R108) and
`COMPLETE` (R110). -/

namespace Sys2Proof.Machine

/-! ### A step with a host turn pending (R43, R104) -/

/-- R104: the `ISSUE` of a word that decodes to `i`. -/
theorem issueWord_eq_exec {c : BitVec 4} {i : Instr} (s : State) (hi : decode c = .ok i) : issueWord c s = exec i s := by
  simp only [issueWord, hi]

/-- A block that is not `BUSY` gets the `ISSUE` of the word in front of its turns, and nothing else. -/
theorem withFetchWord_ready {s : State} (hb : s.status ≠ .busy) (nbits : Nat) (c : BitVec 4) :
    s.withFetchWord nbits c.toNat = { s with turns := .host (.issue c) :: s.turns } := by
  rw [State.withFetchWord, if_pos c.isLt, if_neg hb, BitVec.ofNat_toNat, BitVec.setWidth_eq]

/-- Settles O3. -/
theorem stepRunsTheIssuedCommand : Obligations.StepRunsTheIssuedCommand := by
  refine ⟨fun s op rest => step_host, fun s c i rest ht hb hi => ?_, fun s i hb => ?_⟩
  · rw [step_issue hb ht, issueWord_eq_exec _ hi]
  · rw [withFetchWord_ready hb, step_issue (s := { s with turns := .host (.issue (encode i)) :: s.turns }) hb rfl,
      issueWord_eq_exec _ (decode_encode i)]

/-! ### Loads and reads (R101 to R103, R105, R106) -/

/-- Settles O39: the column of R100 for a block that is not `BUSY` writes, and the one for `BUSY` drops. -/
theorem loadsWriteTheirOneItem : Obligations.LoadsWriteTheirOneItem := by
  refine fun s bytes samples n => ⟨fun hb => ?_, fun hb => ?_⟩
  · rw [hostTurn_ready hb, hostTurn_ready hb, hostTurn_ready hb]
    exact ⟨rfl, rfl, rfl⟩
  · rw [hostTurn_busy hb, hostTurn_busy hb, hostTurn_busy hb]
    exact ⟨rfl, rfl, rfl⟩

/-- R106: on a block that is not `BUSY` every register reads as its value. -/
theorem hostTurn_rdReg_ready (r : Reg) {s : State} (hb : s.status ≠ .busy) :
    hostTurn Config.bounds (.rdReg r) s = .next (reply (.reg r (regValue r s)) s) := hostTurn_ready hb

/-- R106: `STATUS` and `ERR` read as their codes in every state. -/
theorem hostTurn_rdReg_report {r : Reg} (hr : r = .status ∨ r = .err) (s : State) :
    hostTurn Config.bounds (.rdReg r) s = .next (reply (.reg r (regValue r s)) s) := by
  by_cases hb : s.status = .busy
  · rw [hostTurn_busy hb]
    rcases hr with rfl | rfl <;> rfl
  · exact hostTurn_rdReg_ready r hb

/-- R165, U3: while `BUSY` the other registers read as a free value, which for `CMD` has four bits. -/
theorem hostTurn_rdReg_free {r : Reg} {s : State} (hb : s.status = .busy) (hst : r ≠ .status) (herr : r ≠ .err) :
    ∃ v, (r = .cmd → v < 16) ∧ hostTurn Config.bounds (.rdReg r) s = .next (freeReply (.reg r v) s) := by
  rw [hostTurn_busy hb]
  cases r
  case status => exact absurd rfl hst
  case err => exact absurd rfl herr
  case cmd => exact ⟨_, fun _ => (Config.freeCmd s.freeReads).isLt, rfl⟩
  all_goals exact ⟨_, Reg.noConfusion, rfl⟩

/-- Settles O41. -/
theorem readsReturnBuffersAndRegisters : Obligations.ReadsReturnBuffersAndRegisters := by
  refine ⟨fun s hb => ?_, fun s => ?_, fun s hb => ⟨⟨_, hostTurn_busy hb⟩, ⟨_, hostTurn_busy hb⟩, fun r => hostTurn_rdReg_free hb⟩⟩
  · exact ⟨hostTurn_ready hb, hostTurn_ready hb, hostTurn_rdReg_ready .cmd hb, hostTurn_rdReg_ready .frameCount hb,
      hostTurn_rdReg_ready .idx hb, hostTurn_rdReg_ready .rawLen hb, hostTurn_rdReg_ready .smpLen hb⟩
  · exact ⟨hostTurn_rdReg_report (.inl rfl) s, hostTurn_rdReg_report (.inr rfl) s⟩

/-! ### `RESET` (R107) -/

/-- Settles O43: the reset state is not `BUSY`, so a block left to itself stays there. -/
theorem resetEndsAnyTransaction : Obligations.ResetEndsAnyTransaction := by
  intro s rest ht
  refine ⟨resetBlock { s with turns := rest }, (step_host ht).trans (hostTurn_reset _), resetBlock_sameBlock _, rfl, rfl, rfl,
    fun hnone => ?_⟩
  exact (step_alone hnone).trans (blockTurn_ready (by simp [State.reset]))

/-! ### The two checks of `ISSUE` (R108) -/

/-- R12, R60: the words whose width field is none of 1 to 4 spell no operation. -/
theorem widthField_toNat_of_unsupported {c : BitVec 4} (h : Width.ofField (widthField c) = none) :
    ¬ ((widthField c).toNat = 1 ∨ (widthField c).toNat = 2 ∨ (widthField c).toNat = 3 ∨ (widthField c).toNat = 4) := by
  revert c; decide

theorem widthField_toNat (d : Direction) (w : Width) : (widthField (commandWord d w)).toNat = w.bytes := by
  cases d <;> cases w <;> rfl

theorem bytes_supported (w : Width) : w.bytes = 1 ∨ w.bytes = 2 ∨ w.bytes = 3 ∨ w.bytes = 4 := by
  cases w <;> decide

theorem dirBit_decodeWord (w : Width) : (commandWord .decode w).getLsbD 3 = false := by cases w <;> rfl

theorem dirBit_encodeWord (w : Width) : (commandWord .encode w).getLsbD 3 = true := by cases w <;> rfl

/-- Settles O18: the word spells no operation, a decode, whose length decides, or an encode. -/
theorem issueIsAdmittedByTheTwoChecks : Obligations.IssueIsAdmittedByTheTwoChecks := by
  intro s c
  refine ⟨fun hb => hostTurn_busy hb, fun hb => ?_⟩
  rw [hostTurn_issue c hb, ← widthField]
  rcases issueWord_cases c hb with ⟨hu, hi⟩ | ⟨w, rfl, hi⟩ | ⟨w, rfl, hi⟩ <;> rw [hi]
  · rw [if_pos (widthField_toNat_of_unsupported hu)]
    rfl
  · rw [widthField_toNat, if_neg (not_not_intro (bytes_supported w)), dirBit_decodeWord]
    rcases admitDecode_cases w (writeCmd (commandWord .decode w) s) with ⟨hl, ha⟩ | ⟨hl, ha⟩ <;> rw [ha]
    · rw [if_neg fun h => h.2 hl, if_pos rfl]
      rfl
    · rw [if_pos ⟨rfl, hl⟩]
      rfl
  · rw [widthField_toNat, if_neg (not_not_intro (bytes_supported w)), dirBit_encodeWord, if_neg (by simp), if_neg (by simp)]
    rfl

/-! ### `COMPLETE` (R110) -/

/-- R110: with `IDX` at the frame count the command in flight completes. -/
theorem exec_completes {i : Instr} {s : State} (hb : s.status = .busy) (hc : s.cmd = encode i) (hi : s.idx = frames s) :
    exec i s = .next (complete s) := by
  have hw : s.cmd = commandWord i.dir i.width := hc
  cases hd : i.dir <;> rw [hd] at hw
  · rw [frames_of_decode hw] at hi
    rw [exec_of_decode hd, runDecode_inFlight hb hw, decodeBlockStep, if_neg (by omega), if_pos hi]
  · rw [frames_of_encode hw] at hi
    rw [exec_of_encode hd, runEncode_inFlight hb hw, encodeBlockStep, if_neg (by omega), if_pos hi]

/-- R109: under the invariant a decode word in `CMD` is a decode in flight at its own width. -/
theorem Inv.decodeInFlight {w : Width} {s : State} (hs : Inv s) (hb : s.status = .busy) (hc : s.cmd = commandWord .decode w) :
    DecodeInFlight s w := by
  obtain ⟨v, ⟨hv, hf⟩ | ⟨hv, _⟩⟩ := hs.inFlight hb <;> obtain ⟨hd, rfl⟩ := commandWord_inj (hc.symm.trans hv)
  · exact hf
  · cases hd

/-- R109: as `Inv.decodeInFlight`, for an encode word. -/
theorem Inv.encodeInFlight {w : Width} {s : State} (hs : Inv s) (hb : s.status = .busy) (hc : s.cmd = commandWord .encode w) :
    EncodeInFlight s w := by
  obtain ⟨v, ⟨hv, _⟩ | ⟨hv, hf⟩⟩ := hs.inFlight hb <;> obtain ⟨hd, rfl⟩ := commandWord_inj (hc.symm.trans hv)
  · cases hd
  · exact hf

/-- Settles O13: the invariant at `IDX` = `N` is the postcondition. -/
theorem completionEndsTheTransaction : Obligations.CompletionEndsTheTransaction := by
  intro i s hb hc hi
  have hw : s.cmd = commandWord i.dir i.width := hc
  refine ⟨exec_completes hb hc hi, fun hs hd => ?_, fun hs hd => ?_⟩ <;> rw [hd] at hw
  · obtain ⟨_, hl, _, hp⟩ := hs.decodeInFlight hb hw
    rw [hi, frames_of_decode hw] at hp
    exact decodeBuffer_of_prefix hl hp
  · obtain ⟨_, _, hr⟩ := hs.encodeInFlight hb hw
    rwa [hi, frames_of_encode hw, List.take_length] at hr

end Sys2Proof.Machine
end

section
/-! Proofs for the family `42_transaction_control.md`: a transaction in flight to its end, with no host turn pending, under a host that polls,
and in `WAIT` (R105, R109 to R111, R115). -/

namespace Sys2Proof.Machine

/-! ### Where a transaction in flight ends (R110, R111) -/

/-- R110: the atomic transaction of a command in flight is one that was admitted, so it ends in `DONE` with every frame counted. -/
theorem issueAtomic_inFlight {s : State} (hs : Inv s) (hb : s.status = .busy) :
    (issueAtomic s.cmd s).status = .done ∧ (issueAtomic s.cmd s).idx = frames s ∧
      frames (issueAtomic s.cmd s) = frames s := by
  obtain ⟨w, ⟨hc, _, hl, _⟩ | ⟨hc, _⟩⟩ := hs.inFlight hb
  · obtain ⟨out, ho, _⟩ := decodeBuffer_of_length hl
    rw [frames_of_decode hc, hc, issueAtomic_decode ho]
    exact ⟨rfl, rfl, frames_of_decode rfl⟩
  · rw [frames_of_encode hc, hc, issueAtomic_encode]
    exact ⟨rfl, rfl, frames_of_encode rfl⟩

/-- With no turn pending, each of the first steps of a transaction in flight converts one frame. -/
theorem run_frames (k : Nat) {s : State} (hs : Inv s) (hb : s.status = .busy) (ht : s.turns = []) (hk : s.idx + k ≤ frames s) :
    ∃ u, run k s = .next u ∧ u.status = .busy ∧ u.idx = s.idx + k ∧ frames u = frames s := by
  induction k generalizing s with
  | zero => exact ⟨s, rfl, hb, rfl, rfl⟩
  | succ k ih =>
    rcases blockTurn_of_inv hs hb with ⟨t, hturn, hframe⟩ | ⟨hi, _⟩
    · obtain ⟨_, _, _, hturns, _⟩ := blockTurn_keeps hturn
      have hidx := hframe.idx
      have hframes := hframe.frames_eq
      obtain ⟨u, hu, hub, hui, huf⟩ := ih hframe.inv hframe.busy (hturns.trans ht) (by omega)
      exact ⟨u, (run_succ ((step_alone ht).trans hturn)).trans hu, hub, by omega, huf.trans hframes⟩
    · omega

/-- Settles O26: the frame steps by induction on their number, and the end by `run_inFlight`. -/
theorem transactionTakesExactlyNPlusOneSteps : Obligations.TransactionTakesExactlyNPlusOneSteps := by
  intro s hs hb hi ht
  refine ⟨fun k hk => ?_, ?_⟩
  · obtain ⟨u, hu, hub, hui, huf⟩ := run_frames k hs hb ht (by omega)
    exact ⟨u, hu, hub, by omega, huf⟩
  · obtain ⟨hdone, hidx, _⟩ := issueAtomic_inFlight hs hb
    exact ⟨_, run_inFlight (frames s) hs hb ht (by omega), hdone, hidx⟩

/-! ### The stepped machine and the atomic one (R111) -/

/-- R104, R108: an `ISSUE` leaves the turns to come and the host's replies alone. -/
theorem issueWord_keeps_outside {c : BitVec 4} {s t : State} (hb : s.status ≠ .busy) (h : issueWord c s = .next t) :
    t.turns = s.turns ∧ t.replies = s.replies := by
  rcases issueWord_cases c hb with ⟨_, hi⟩ | ⟨w, _, hi⟩ | ⟨_, _, hi⟩ <;> cases hi.symm.trans h
  · exact ⟨rfl, rfl⟩
  · rcases admitDecode_cases w (writeCmd c s) with ⟨_, ha⟩ | ⟨_, ha⟩ <;> rw [ha] <;> exact ⟨rfl, rfl⟩
  · exact ⟨rfl, rfl⟩

/-- Settles O27: a refused `ISSUE` is the atomic transaction in its one step, and an admitted one ends there after as many frame steps as
the atomic state counts, and `COMPLETE`. -/
theorem steppedTransactionIsTheAtomicOne : Obligations.SteppedTransactionIsTheAtomicOne := by
  intro s c hb ht
  obtain ⟨t, hissue, ⟨rfl, _, herr, _⟩ | hadm⟩ := issueWord_refuses_or_admits c hb
  · rw [if_pos herr, run_succ ((step_only_issue c hb ht).trans hissue), run_zero]
  · obtain ⟨hturns, _⟩ := issueWord_keeps_outside hb hissue
    obtain ⟨hdone, _, hframes⟩ := issueAtomic_inFlight hadm.inv hadm.busy
    rw [hadm.cmd, hadm.atomic] at hdone hframes
    rw [if_neg (by simp [hdone]), hframes]
    exact run_issue_admitted hb ht hissue hadm (hturns.trans ht)

/-! ### A host that only polls (R18, R105) -/

/-- The block is on its way to the end `e`: a transaction in flight whose atomic end is `e`, or at rest in `e`. -/
def HeadsTo (e s : State) : Prop :=
  (Inv s ∧ s.status = .busy ∧ SameBlock (issueAtomic s.cmd s) e) ∨ (s.status ≠ .busy ∧ SameBlock s e)

/-- What `RDSTATUS` can reply on the way to `e`: (`BUSY`, `NONE`) or the outcome. -/
def ReplyOf (e : State) (r : Reply) : Prop :=
  r = .status .busy .none ∨ r = .status e.status e.err

/-- From `s` to `t` the host was given replies on the way to `e` and nothing else. -/
def SeesOnly (e s t : State) : Prop :=
  ∃ seen, t.replies = seen ++ s.replies ∧ ∀ r, r ∈ seen → ReplyOf e r

theorem seesOnly_of_eq {e s t : State} (h : t.replies = s.replies) : SeesOnly e s t :=
  ⟨[], h, fun _ hr => absurd hr List.not_mem_nil⟩

theorem seesOnly_trans {e s t u : State} (hst : SeesOnly e s t) (htu : SeesOnly e t u) : SeesOnly e s u := by
  obtain ⟨before, ht, hbefore⟩ := hst
  obtain ⟨after, hu, hafter⟩ := htu
  refine ⟨after ++ before, by rw [hu, ht, List.append_assoc], fun r hr => ?_⟩
  rcases List.mem_append.mp hr with h | h
  · exact hafter r h
  · exact hbefore r h

/-- `HeadsTo` speaks of the block alone. -/
theorem headsTo_of_sameBlock {e s t : State} (h : SameBlock t s) (hs : HeadsTo e s) : HeadsTo e t := by
  have ⟨hcmd, _, hst, _⟩ := h
  rcases hs with ⟨hinv, hb, hend⟩ | ⟨hb, hend⟩
  · refine .inl ⟨inv_of_sameBlock h hinv, hst.trans hb, ?_⟩
    rw [hcmd]
    exact sameBlock_trans (issueAtomic_sameBlock s.cmd h) hend
  · exact .inr ⟨by rwa [hst], sameBlock_trans h hend⟩

/-- A turn of the block stays on the way: a frame step keeps the atomic end, `COMPLETE` reaches it, and at rest nothing moves. -/
theorem blockTurn_headsTo {e s : State} (hs : HeadsTo e s) : ∃ t, blockTurn s = .next t ∧ HeadsTo e t := by
  rcases hs with ⟨hinv, hb, hend⟩ | ⟨hb, hend⟩
  · rcases blockTurn_of_inv hinv hb with ⟨t, ht, hframe⟩ | ⟨hi, hc⟩
    · exact ⟨t, ht, .inl ⟨hframe.inv, hframe.busy, by rw [hframe.atomic]; exact hend⟩⟩
    · refine ⟨_, hc, .inr ⟨by simp, ?_⟩⟩
      rw [complete_eq_issueAtomic hinv hb hi]
      exact hend
  · exact ⟨s, blockTurn_ready hb, .inr ⟨hb, hend⟩⟩

/-- R18, R105: a poll on the way to `e` replies (`BUSY`, `NONE`) or the outcome. -/
theorem polled_seesOnly {e s : State} (hs : HeadsTo e s) : SeesOnly e s (polled s) := by
  refine ⟨[.status s.status s.err], rfl, fun r hr => ?_⟩
  rw [List.mem_singleton.mp hr]
  rcases hs with ⟨hinv, hb, _⟩ | ⟨_, _, _, hst, herr, _⟩
  · exact .inl (by rw [hb, hinv.err_of_busy hb])
  · exact .inr (by rw [hst, herr])

/-- One turn that a polling host leaves pending, of the block or an `RDSTATUS`. -/
theorem step_headsTo {e s : State} {m : Turn} {rest : List Turn} (hs : HeadsTo e s) (ht : s.turns = m :: rest)
    (hm : m = .block ∨ m = .host .rdStatus) :
    ∃ t, step s = .next t ∧ HeadsTo e t ∧ t.turns = rest ∧ SeesOnly e s t := by
  have hspent : HeadsTo e { s with turns := rest } := headsTo_of_sameBlock (withTurns_sameBlock s rest) hs
  rcases hm with rfl | rfl
  · obtain ⟨t, hturn, hheads⟩ := blockTurn_headsTo hspent
    obtain ⟨_, _, _, hturns, hreplies, _⟩ := blockTurn_keeps hturn
    exact ⟨t, (step_block ht).trans hturn, hheads, hturns, seesOnly_of_eq hreplies⟩
  · exact ⟨polled { s with turns := rest }, (step_host ht).trans (hostTurn_rdStatus _),
      headsTo_of_sameBlock (polled_sameBlock _) hspent, rfl, polled_seesOnly hspent⟩

/-- The turns of a polling host, all of them. -/
theorem run_headsTo {e s : State} {turns : List Turn} (hs : HeadsTo e s) (ht : s.turns = turns) (hp : PollsOnly turns) :
    ∃ t, run turns.length s = .next t ∧ HeadsTo e t ∧ SeesOnly e s t := by
  induction turns generalizing s with
  | nil => exact ⟨s, rfl, hs, seesOnly_of_eq rfl⟩
  | cons m rest ih =>
    obtain ⟨u, hu, hheads, hturns, hsees⟩ := step_headsTo hs ht (hp m List.mem_cons_self)
    obtain ⟨t, hrun, hend, hmore⟩ := ih hheads hturns fun n hn => hp n (List.mem_cons_of_mem m hn)
    exact ⟨t, (run_succ hu).trans hrun, hend, seesOnly_trans hsees hmore⟩

/-- An `ISSUE`, refused or admitted, puts the block on the way to the atomic state. -/
theorem issueWord_headsTo (c : BitVec 4) {s : State} (hb : s.status ≠ .busy) :
    ∃ t, issueWord c s = .next t ∧ HeadsTo (issueAtomic c s) t := by
  obtain ⟨t, hissue, ⟨rfl, _, herr, _⟩ | hadm⟩ := issueWord_refuses_or_admits c hb
  · exact ⟨_, hissue, .inr ⟨by simp [herr], sameBlock_refl _⟩⟩
  · refine ⟨t, hissue, .inl ⟨hadm.inv, hadm.busy, ?_⟩⟩
    rw [hadm.cmd, hadm.atomic]
    exact sameBlock_refl _

/-- Settles O28: the `ISSUE` puts the block on the way to the atomic state, and every turn of a polling host keeps it there. -/
theorem pollingHostSeesTheAtomicTransaction : Obligations.PollingHostSeesTheAtomicTransaction := by
  intro s c turns hb hp
  have hstart : SameBlock (issueAtomic c { s with turns := turns }) (issueAtomic c s) :=
    issueAtomic_sameBlock c (withTurns_sameBlock s turns)
  obtain ⟨u, hissue, hheads⟩ := issueWord_headsTo c (s := { s with turns := turns }) hb
  have hstep : step { s with turns := .host (.issue c) :: turns } = .next u :=
    (step_issue (s := { s with turns := .host (.issue c) :: turns }) hb rfl).trans hissue
  obtain ⟨hturns, hreplies⟩ := issueWord_keeps_outside (s := { s with turns := turns }) hb hissue
  obtain ⟨t, hrun, hend, seen, hseen, hall⟩ := run_headsTo hheads hturns hp
  have ⟨_, _, hst, herr, _⟩ := hstart
  refine ⟨t, (run_succ hstep).trans hrun, fun hready => ?_, seen, by rw [hseen, hreplies], fun r hr => ?_⟩
  · rcases hend with ⟨_, hbusy, _⟩ | ⟨_, hsame⟩
    · exact absurd hbusy hready
    · exact sameBlock_trans hsame hstart
  · rw [← hst, ← herr]
    exact hall r hr

/-! ### `WAIT` (R105) -/

theorem andThen_next {r : Result} {f : State → Result} {t : State} (h : andThen r f = .next t) :
    ∃ u, r = .next u ∧ f u = .next t := by
  cases r with
  | next u => exact ⟨u, rfl, h⟩
  | fault e => cases h
  | refused e => cases h

theorem waitFor_succ_ready (k : Nat) {s : State} (hb : s.status ≠ .busy) : waitFor (k + 1) s = .next (polled s) := by
  simp only [waitFor, hostTurn_rdStatus, andThen]
  split
  · exact absurd ‹_› hb
  · rfl

theorem waitFor_succ_busy (k : Nat) {s : State} (hb : s.status = .busy) :
    waitFor (k + 1) s = andThen (blockTurn (polled s)) (waitFor k) := by
  simp only [waitFor, hostTurn_rdStatus, andThen, reply_status, hb, polled]

/-- Where `WAIT` leaves the block not `BUSY`, with one poll more it ends by reading the outcome. -/
theorem waitFor_one_more {k : Nat} {s t : State} (h : waitFor k s = .next t) (ht : t.status ≠ .busy) :
    ∃ u, waitFor (k + 1) s = .next (polled u) ∧ SameBlock t u := by
  induction k generalizing s with
  | zero =>
    cases h
    exact ⟨_, waitFor_succ_ready 0 ht, sameBlock_refl _⟩
  | succ k ih =>
    by_cases hb : s.status = .busy
    · rw [waitFor_succ_busy k hb] at h
      obtain ⟨v, hturn, hrest⟩ := andThen_next h
      obtain ⟨u, hu, hsame⟩ := ih hrest
      exact ⟨u, (waitFor_busy hb hturn).trans hu, hsame⟩
    · rw [waitFor_succ_ready k hb] at h
      cases h
      exact ⟨s, waitFor_succ_ready (k + 1) hb, polled_sameBlock s⟩

/-- R105, R115: with one poll for each turn the block has left, `WAIT` leaves it not `BUSY`. -/
theorem waitFor_turnsLeft {s : State} (hs : Inv s) : ∃ t, waitFor (turnsLeft s) s = .next t ∧ t.status ≠ .busy := by
  by_cases hb : s.status = .busy
  · obtain ⟨t, ht, _, _, hst, _⟩ := waitFor_inFlight _ hs hb (Nat.le_refl _)
    obtain ⟨hdone, _⟩ := issueAtomic_inFlight hs hb
    exact ⟨t, ht, by simp [hst, hdone]⟩
  · obtain ⟨t, ht, _, _, hst, _⟩ := waitFor_ready (turnsLeft s) hb
    exact ⟨t, ht, by rwa [hst]⟩

/-- R105: `WAIT` ends with a poll of a block that is not `BUSY`. -/
theorem wait_ends {s : State} (hs : Inv s) : ∃ u, wait s = .next (polled u) ∧ u.status ≠ .busy := by
  obtain ⟨t, ht, hready⟩ := waitFor_turnsLeft hs
  obtain ⟨u, hu, _, _, hst, _⟩ := waitFor_one_more ht hready
  exact ⟨u, hu, by rwa [← hst]⟩

/-- Settles O40: the reply is that of `RDSTATUS` everywhere, the invariant says what it is in flight, and `WAIT` ends with it. -/
theorem statusIsReadableInEveryState : Obligations.StatusIsReadableInEveryState := by
  refine ⟨hostTurn_rdStatus, fun s hs hb => ?_, fun s hs => ?_⟩
  · have hpoll := hostTurn_rdStatus s
    rwa [hb, hs.err_of_busy hb] at hpoll
  · obtain ⟨u, hu, hready⟩ := wait_ends hs
    exact ⟨polled u, hu, hready, rfl⟩

end Sys2Proof.Machine
end

section
/-! Proofs for the family `42_transaction_control.md`: the host programs `decode` and `encode` (R113, R114), each an `ISSUE` and `WAIT` on
operands just loaded, one more poll, and the read that the poll decides on. -/

namespace Sys2Proof.Machine

/-! ### The body of both programs -/

theorem perform_op {op : HostOp} {s t : State} (rest : List HostLine) (h : hostTurn Config.bounds op s = .next t) :
    perform (.op op :: rest) s = perform rest t := by
  simp only [perform, performLine, h, andThen]

theorem andThen_assoc (r : Result) (f g : State → Result) : andThen (andThen r f) g = andThen r fun s => andThen (f s) g := by
  cases r <;> rfl

theorem perform_append (first rest : List HostLine) (s : State) :
    perform (first ++ rest) s = andThen (perform first s) (perform rest) := by
  induction first generalizing s with
  | nil => rfl
  | cons line first ih =>
    simp only [List.cons_append, perform, andThen_assoc]
    congr 1
    exact funext ih

/-- R111 for `ISSUE c; WAIT; RDSTATUS`: the last poll is of the block in the state of the atomic transaction. -/
theorem perform_issue_wait_poll (c : BitVec 4) {s : State} (hb : s.status ≠ .busy) :
    ∃ t, perform [.op (.issue c), .wait, .op .rdStatus] s = .next (polled t) ∧ SameBlock t (issueAtomic c s) := by
  obtain ⟨t, ht, hsame⟩ := perform_issue_wait c hb
  have hpoll := perform_append [.op (.issue c), .wait] [.op .rdStatus] s
  rw [ht] at hpoll
  exact ⟨t, hpoll.trans (perform_op [] (hostTurn_rdStatus t)), hsame⟩

/-! ### The end of both programs -/

/-- R113, R114: after `DONE` the call hands back what its last read gives. -/
theorem readResult_done {α : Type} {op : HostOp} (last : State → Answer α) {t u : State} (hst : t.status = .done)
    (hop : hostReady op (polled t) = .next u) : (readResult (.op op) last (polled t)).1 = last u := by
  have hturn : hostTurn Config.bounds op (polled t) = .next u :=
    (hostTurn_ready (s := polled t) (by simp [polled, hst])).trans hop
  have hnone : statusError (polled t) = none := by
    simp only [statusError, polled, reply_replies, List.head?_cons, hst]
  simp only [readResult, hnone, performLine, hturn]

/-- The class the host's call reports for an error of the block (R113, R114, R140). -/
def CodecError.hostError : CodecError → HostError
  | .malformedInput => .malformedInput
  | .unsupportedConfiguration => .unsupportedConfiguration

/-- R113, R114: an error that the last poll reports is the call's. -/
theorem readResult_raised {α : Type} (line : HostLine) (last : State → Answer α) {e : CodecError} {s t : State}
    (h : SameBlock t (raiseError e s)) : (readResult line last (polled t)).1 = .error e.hostError := by
  obtain ⟨_, _, hst, herr, _⟩ := h
  cases e <;>
    simp only [readResult, statusError, polled, reply_replies, List.head?_cons, hst, herr, raiseError_status, raiseError_err,
      CodecError.err, CodecError.hostError]

/-- R60, R113, R114: a word with an unsupported width ends its call, whichever the direction. -/
theorem readResult_unsupported {α : Type} (line : HostLine) (last : State → Answer α) {c : BitVec 4} {s t : State}
    (hu : Width.ofField (widthField c) = none) (hsame : SameBlock t (issueAtomic c s)) :
    (readResult line last (polled t)).1 = .error .unsupportedConfiguration := by
  rw [issueAtomic_unsupported s hu] at hsame
  exact readResult_raised line last hsame

/-! ### The widths a call presents (R60) -/

theorem widthFits_iff {w : Int} : widthFits w = true ↔ 0 ≤ w ∧ w ≤ 7 := by
  rw [widthFits, Bool.and_eq_true, decide_eq_true_eq, decide_eq_true_eq]

theorem widthFits_bytes (w : Width) : widthFits w.bytes = true := by cases w <;> rfl

theorem ofInt_bytes (w : Width) : BitVec.ofInt 4 w.bytes = commandWord .decode w := by cases w <;> rfl

theorem ofInt_add_bytes (w : Width) : BitVec.ofInt 4 (8 + w.bytes) = commandWord .encode w := by cases w <;> rfl

/-- R60: a width of 0 to 7 that is not one of the four makes a word of neither direction. -/
theorem ofField_ofInt_eq_none {w : Int} (hw : widthFits w = true) (hu : ¬ (1 ≤ w ∧ w ≤ 4)) :
    Width.ofField (widthField (BitVec.ofInt 4 w)) = none ∧ Width.ofField (widthField (BitVec.ofInt 4 (8 + w))) = none := by
  obtain ⟨h0, h7⟩ := widthFits_iff.mp hw
  have hcases : w = 0 ∨ w = 5 ∨ w = 6 ∨ w = 7 := by omega
  rcases hcases with rfl | rfl | rfl | rfl <;> decide

/-! ### `decode` (R113) -/

/-- The call `decode` up to its last poll is the atomic transaction on the operands it loads. -/
theorem decodeCall_atomic (raw : List Byte) (n : Nat) {w : Int} {s : State} (hw : widthFits w = true) (hb : s.status ≠ .busy) :
    ∃ t, decodeCall raw n w s = readResult (.op .rdSmp) lastSamples (polled t) ∧
      SameBlock t (issueAtomic (BitVec.ofInt 4 w) (setFrameCount n (loadRaw raw s))) := by
  have hload : hostTurn Config.bounds (.loadRaw raw) s = .next (loadRaw raw s) := hostTurn_ready hb
  have hcount : hostTurn Config.bounds (.setFc n) (loadRaw raw s) = .next (setFrameCount n (loadRaw raw s)) :=
    hostTurn_ready (s := loadRaw raw s) hb
  obtain ⟨t, ht, hsame⟩ := perform_issue_wait_poll (BitVec.ofInt 4 w) (s := setFrameCount n (loadRaw raw s)) hb
  exact ⟨t, by rw [decodeCall, if_pos hw, perform_op _ hload, perform_op _ hcount, ht], hsame⟩

/-- R76, R113: an admitted decode hands back what the function gives. -/
theorem decodeCall_value {raw : List Byte} {n : Nat} {w : Width} {s : State} {out : List Word} (hb : s.status ≠ .busy)
    (ho : decodeBuffer raw n w = some out) : (decodeCall raw n w.bytes s).1 = .value out := by
  obtain ⟨t, ht, hsame⟩ := decodeCall_atomic raw n (widthFits_bytes w) hb
  rw [ofInt_bytes, issueAtomic_decode (s := setFrameCount n (loadRaw raw s)) ho] at hsame
  obtain ⟨_, _, hst, _, _, _, rfl⟩ := hsame
  rw [ht, readResult_done (op := .rdSmp) lastSamples hst rfl]
  rfl

/-- R113, R142: a length mismatch is the call's error. -/
theorem decodeCall_malformed {raw : List Byte} {n : Nat} {w : Width} {s : State} (hb : s.status ≠ .busy)
    (ho : decodeBuffer raw n w = none) : (decodeCall raw n w.bytes s).1 = .error .malformedInput := by
  have hl : raw.length ≠ n * w.bytes := fun hl => by
    obtain ⟨out, hout, _⟩ := decodeBuffer_of_length hl
    cases ho.symm.trans hout
  obtain ⟨t, ht, hsame⟩ := decodeCall_atomic raw n (widthFits_bytes w) hb
  rw [ofInt_bytes, issueAtomic_malformed (s := setFrameCount n (loadRaw raw s)) hl] at hsame
  rw [ht]
  exact readResult_raised _ _ hsame

/-- R60, R113: every other integer width is unsupported, presented to the block or not. -/
theorem decodeCall_unsupported (raw : List Byte) (n : Nat) {w : Int} {s : State} (hb : s.status ≠ .busy) (hu : ¬ (1 ≤ w ∧ w ≤ 4)) :
    (decodeCall raw n w s).1 = .error .unsupportedConfiguration := by
  by_cases hw : widthFits w = true
  · obtain ⟨t, ht, hsame⟩ := decodeCall_atomic raw n hw hb
    rw [ht]
    exact readResult_unsupported _ _ (ofField_ofInt_eq_none hw hu).1 hsame
  · rw [decodeCall, if_neg hw]

/-- R63, R64, R113: the two-operand form counts the frames itself. -/
theorem decodeCall2_bytes (raw : List Byte) (w : Width) (s : State) :
    decodeCall2 raw w.bytes s = decodeCall raw (raw.length / w.bytes) w.bytes s := by
  rw [decodeCall2, Int.toNat_natCast]

/-- Settles O51. -/
theorem decodeCallIsTheDocumentsDecode : Obligations.DecodeCallIsTheDocumentsDecode := by
  refine ⟨fun raw n w s hb => ?_, fun raw n w s hb hu => decodeCall_unsupported raw n hb hu, fun raw w s hb => ?_⟩
  · split
    · exact decodeCall_value hb ‹_›
    · exact decodeCall_malformed hb ‹_›
  · rw [decodeCall2_bytes]
    split
    · exact decodeCall_value hb ‹_›
    · exact decodeCall_malformed hb ‹_›

/-! ### `encode` (R114) -/

theorem all_sampleFits_iff {samples : List Int} :
    samples.all sampleFits = true ↔ ∀ x, x ∈ samples → -2147483648 ≤ x ∧ x ≤ 2147483647 := by
  simp only [List.all_eq_true, sampleFits, Bool.and_eq_true, decide_eq_true_eq]

/-- The call `encode` up to its last poll is the atomic transaction on the samples it loads. -/
theorem encodeCall_atomic {samples : List Int} {w : Int} {s : State} (hw : widthFits w = true)
    (hx : ∀ x, x ∈ samples → -2147483648 ≤ x ∧ x ≤ 2147483647) (hb : s.status ≠ .busy) :
    ∃ t, encodeCall samples w s = readResult (.op .rdRaw) lastBytes (polled t) ∧
      SameBlock t (issueAtomic (BitVec.ofInt 4 (8 + w)) (loadSmp (samples.map (BitVec.ofInt 32)) s)) := by
  have hload : hostTurn Config.bounds (.loadSmp (samples.map (BitVec.ofInt 32))) s =
      .next (loadSmp (samples.map (BitVec.ofInt 32)) s) := hostTurn_ready hb
  obtain ⟨t, ht, hsame⟩ :=
    perform_issue_wait_poll (BitVec.ofInt 4 (8 + w)) (s := loadSmp (samples.map (BitVec.ofInt 32)) s) hb
  exact ⟨t, by rw [encodeCall, if_pos hw, if_pos (all_sampleFits_iff.mpr hx), perform_op _ hload, ht], hsame⟩

/-- R91, R114: an encode of a supported width hands back what the function gives. -/
theorem encodeCall_value {samples : List Int} (w : Width) {s : State} (hb : s.status ≠ .busy)
    (hx : ∀ x, x ∈ samples → -2147483648 ≤ x ∧ x ≤ 2147483647) :
    (encodeCall samples w.bytes s).1 = .value (encodeBuffer (samples.map (BitVec.ofInt 32)) w) := by
  obtain ⟨t, ht, hsame⟩ := encodeCall_atomic (widthFits_bytes w) hx hb
  rw [ofInt_add_bytes, issueAtomic_encode] at hsame
  obtain ⟨_, _, hst, _, _, hraw, _⟩ := hsame
  have hread : lastBytes (reply (.raw (polled t).raw) (polled t)) = .value t.raw := rfl
  rw [ht, readResult_done (op := .rdRaw) lastBytes hst rfl, hread, hraw]
  rfl

/-- R60, R114: every other integer width is unsupported, presented to the block or not. -/
theorem encodeCall_unsupported {samples : List Int} {w : Int} {s : State} (hb : s.status ≠ .busy) (hu : ¬ (1 ≤ w ∧ w ≤ 4))
    (hx : ∀ x, x ∈ samples → -2147483648 ≤ x ∧ x ≤ 2147483647) :
    (encodeCall samples w s).1 = .error .unsupportedConfiguration := by
  by_cases hw : widthFits w = true
  · obtain ⟨t, ht, hsame⟩ := encodeCall_atomic hw hx hb
    rw [ht]
    exact readResult_unsupported _ _ (ofField_ofInt_eq_none hw hu).2 hsame
  · rw [encodeCall, if_neg hw]

/-- R102, U7: one sample that fits no cell and the call presents nothing to the block. -/
theorem encodeCall_refused {samples : List Int} {w x : Int} (s : State) (hw : widthFits w = true) (hx : x ∈ samples)
    (hbig : x < -2147483648 ∨ 2147483647 < x) : encodeCall samples w s = (.error .sampleRefused, s) := by
  have hall : ¬ samples.all sampleFits = true := fun h => by
    have := all_sampleFits_iff.mp h x hx
    omega
  rw [encodeCall, if_pos hw, if_neg hall]

/-- Settles O52. -/
theorem encodeCallIsTheDocumentsEncode : Obligations.EncodeCallIsTheDocumentsEncode :=
  ⟨fun _ w _ hb hx => encodeCall_value w hb hx, fun _ _ _ hb hu hx => encodeCall_unsupported hb hu hx,
    fun _ _ s h0 h7 ⟨_, hx, hbig⟩ => encodeCall_refused s (widthFits_iff.mpr ⟨h0, h7⟩) hx hbig⟩

end Sys2Proof.Machine
end

section
/-! Proofs for the family `43_container_host.md`, the layer beneath them: what the container functions can do (R122, R125, R127), and the
frames of a slice of a payload (R123). -/

namespace Sys2Proof.Machine

/-! ### The `finally` of both functions (R127) -/

@[simp] theorem finish_error {α : Type} (io : IoEvents) (e : HostError) (wd : World) :
    finish io (.error e : Answer α) wd = (.error e, closeHandle wd) := rfl

@[simp] theorem finish_fine {α : Type} (a : Answer α) (wd : World) : finish .fine a wd = (a, closeHandle wd) := by
  cases a <;> rfl

/-- The `finally` closes, whatever the call answers. -/
theorem finish_world {α : Type} (io : IoEvents) (a : Answer α) (wd : World) : (finish io a wd).2 = closeHandle wd := by
  unfold finish
  split
  · rfl
  · split <;> rfl

/-! ### `readContainer` (R122) -/

/-- A container that opens is read by the body and closed. -/
theorem readContainer_opened {io : IoEvents} {path : String} {c : Container} {wd : World} (a b : Int)
    (hfile : lookupFile path wd.files = some (.container c)) (hopen : io.openOk = true) (hwf : c.wf = true) :
    readContainer io path a b wd =
      finish io (readOpen io c a b (openHandle path wd)).1 (readOpen io c a b (openHandle path wd)).2 := by
  simp only [readContainer, hfile, hopen, hwf, Bool.and_self, if_true]

/-- A file that is no container, or does not open, or is not what its header declares, is an I/O error and changes nothing (R124a). -/
theorem readContainer_unopened {io : IoEvents} {path : String} {wd : World} (a b : Int)
    (h : ∀ c, lookupFile path wd.files = some (.container c) → ¬ (io.openOk = true ∧ c.wf = true)) :
    readContainer io path a b wd = (.error .ioError, wd) := by
  unfold readContainer
  split
  · next c hfile => rw [if_neg (by rw [Bool.and_eq_true]; exact h c hfile)]
  · rfl

/-- Everything a call of `readContainer` can do: it does not open the file, or it reads a container and closes it. -/
theorem readContainer_cases (io : IoEvents) (path : String) (a b : Int) (wd : World) :
    readContainer io path a b wd = (.error .ioError, wd) ∨
    ∃ c, lookupFile path wd.files = some (.container c) ∧ readContainer io path a b wd =
      finish io (readOpen io c a b (openHandle path wd)).1 (readOpen io c a b (openHandle path wd)).2 := by
  by_cases h : ∃ c, lookupFile path wd.files = some (.container c) ∧ io.openOk = true ∧ c.wf = true
  · obtain ⟨c, hfile, hopen, hwf⟩ := h
    exact .inr ⟨c, hfile, readContainer_opened a b hfile hopen hwf⟩
  · exact .inl (readContainer_unopened a b fun c hfile hopens => h ⟨c, hfile, hopens⟩)

/-- U5: a range lies outside the container exactly when one of its ends does, or the ends are in the wrong order. -/
theorem rangeOutside_iff {a b : Int} {total : Nat} :
    rangeOutside a b total = true ↔ a < 0 ∨ b < 0 ∨ (total : Int) < a ∨ (b ≠ 0 ∧ ((total : Int) ≤ b ∨ b < a)) := by
  simp only [rangeOutside, Bool.or_eq_true, Bool.and_eq_true, decide_eq_true_eq, or_assoc]

/-- Inside the container, and short of its end, a read returns exactly the bytes of the frames (R122). -/
theorem containerRead_inside {io : IoEvents} {c : Container} {a n : Nat} {b : Int} (hread : io.readOk = true)
    (hin : rangeOutside a b c.frameCount = false) (hn : frameRequest a b c.frameCount = n) (hseek : a = 0 ∨ a < c.frameCount) :
    containerRead io c a b = some (payloadSlice c a n) := by
  have hstart : (decide ((a : Int) = c.frameCount) && decide ((a : Int) ≠ 0)) = false := by
    rw [← Bool.decide_and, decide_eq_false_iff_not]
    omega
  simp only [containerRead, hread, hin, hn, hstart, Bool.false_and, Bool.false_eq_true, if_true, if_false, Int.toNat_natCast]

/-- Outside the container a read fails, or returns fewer bytes than asked for (R124d, U5, log entry 9). -/
theorem containerRead_outside {io : IoEvents} {c : Container} {a b : Int} {bytes : List Byte}
    (hout : rangeOutside a b c.frameCount = true) (h : containerRead io c a b = some bytes) :
    bytes = shortSlice c a b (frameRequest a b c.frameCount) := by
  simp only [containerRead, hout, if_true] at h
  split at h
  · split at h
    · cases h
    · exact (Option.some.inj h).symm
  · cases h

theorem shortSlice_length_le (c : Container) (a b n : Int) : (shortSlice c a b n).length ≤ n.toNat * c.sampleWidth - 1 :=
  List.length_take_le _ _

/-! ### The frames of a slice (R123) -/

/-- R76: a frame's sample depends on its own group alone, so frame `i` of a slice from frame `a` on is frame `a + i` of the whole. -/
theorem frameSample_slice {w : Width} {raw : List Byte} {a i m : Nat} (hi : i < m) (hm : (a + m) * w.bytes ≤ raw.length) :
    frameSample w ((raw.drop (a * w.bytes)).take (m * w.bytes)) i = frameSample w raw (a + i) := by
  have hfits : i * w.bytes + w.bytes ≤ m * w.bytes := frame_fits hi
  have hmul : (a + m) * w.bytes = a * w.bytes + m * w.bytes := Nat.add_mul a m w.bytes
  have haddr : (a + i) * w.bytes = a * w.bytes + i * w.bytes := Nat.add_mul a i w.bytes
  have hslice : i * w.bytes + w.bytes ≤ ((raw.drop (a * w.bytes)).take (m * w.bytes)).length := by
    rw [List.length_take, List.length_drop]
    omega
  rw [frameSample, frameSample, memRead_inside hslice, memRead_inside (by omega), List.drop_take, List.take_take, List.drop_drop,
    Nat.min_eq_left (by omega), haddr]

/-- R123: the decode of a slice of a payload is the slice of the decode. -/
theorem decodeBuffer_slice {w : Width} {raw : List Byte} {n a m : Nat} {all : List Word} (h : decodeBuffer raw n w = some all)
    (ham : a + m ≤ n) :
    decodeBuffer ((raw.drop (a * w.bytes)).take (m * w.bytes)) m w = some ((all.drop a).take m) := by
  obtain ⟨hl, hp⟩ := decodeBuffer_some h
  have hall : all.length = n := decodePrefix_length hp
  have hend : (a + m) * w.bytes ≤ raw.length := hl ▸ Nat.mul_le_mul_right w.bytes ham
  have hslice : ((raw.drop (a * w.bytes)).take (m * w.bytes)).length = m * w.bytes := by
    rw [List.length_take, List.length_drop]
    rw [Nat.add_mul] at hend
    omega
  obtain ⟨out, ho, hprefix, hlen⟩ := decodeBuffer_of_length hslice
  have hframes : out = (all.drop a).take m := List.ext_getElem? fun i => by
    by_cases hi : i < m
    · rw [decodePrefix_get hprefix i hi, frameSample_slice hi hend, List.getElem?_take_of_lt hi, List.getElem?_drop,
        decodePrefix_get hp (a + i) (by omega)]
    · rw [List.getElem?_eq_none (by omega), List.getElem?_eq_none (by rw [List.length_take]; omega)]
  rw [ho, hframes]

/-! ### The body of `readContainer` -/

theorem readOpen_stereo (io : IoEvents) {c : Container} (a b : Int) (wd : World) (hc : c.channels ≠ 1) :
    readOpen io c a b wd = (.error .unsupportedConfiguration, wd) := if_pos hc

/-- R122: the frames of a range inside the container come back, with its width and rate. -/
theorem readOpen_inside {io : IoEvents} {c : Container} {w : Width} {a n : Nat} {b : Int} {wd : World} {all : List Word}
    (hready : wd.ready) (hread : io.readOk = true) (hc : c.channels = 1) (hw : c.sampleWidth = w.bytes)
    (hin : rangeOutside a b c.frameCount = false) (hn : frameRequest a b c.frameCount = n) (hseek : a = 0 ∨ a < c.frameCount)
    (ham : a + n ≤ c.frameCount) (hall : decodeBuffer c.payload c.frameCount w = some all) :
    (readOpen io c a b wd).1 = .value ((all.drop a).take n, w.bytes, c.frameRate) := by
  have hdecode : (decodeCall (payloadSlice c a n) n w.bytes wd.block).1 = .value ((all.drop a).take n) := by
    rw [payloadSlice, hw]
    exact decodeCall_value hready (decodeBuffer_slice hall ham)
  simp only [readOpen, containerRead_inside hread hin hn hseek, hc, hin, hn, ne_eq, not_true_eq_false, if_false, Bool.false_and,
    Bool.false_eq_true, Int.toNat_natCast, hdecode, withMetadata, hw]

/-- R122, R123: with every file operation succeeding, a range of `n` frames inside a mono container of a supported width returns them. -/
theorem readContainer_inside {path : String} {c : Container} {w : Width} {a n : Nat} {b : Int} {wd : World} {all : List Word}
    (hready : wd.ready) (hfile : lookupFile path wd.files = some (.container c)) (hwf : c.wf = true) (hc : c.channels = 1)
    (hw : c.sampleWidth = w.bytes) (hin : rangeOutside a b c.frameCount = false) (hn : frameRequest a b c.frameCount = n)
    (hseek : a = 0 ∨ a < c.frameCount) (ham : a + n ≤ c.frameCount) (hall : decodeBuffer c.payload c.frameCount w = some all) :
    (readContainer .fine path a b wd).1 = .value ((all.drop a).take n, w.bytes, c.frameRate) := by
  rw [readContainer_opened a b hfile rfl hwf, finish_fine]
  exact readOpen_inside (wd := openHandle path wd) hready rfl hc hw hin hn hseek ham hall

/-- R12: each of 1 to 4 is the byte count of a supported width. -/
theorem exists_width_of_supported {k : Nat} (h1 : 1 ≤ k) (h4 : k ≤ 4) : ∃ w : Width, k = w.bytes := by
  have hcases : k = 1 ∨ k = 2 ∨ k = 3 ∨ k = 4 := by omega
  rcases hcases with rfl | rfl | rfl | rfl
  · exact ⟨.one, rfl⟩
  · exact ⟨.two, rfl⟩
  · exact ⟨.three, rfl⟩
  · exact ⟨.four, rfl⟩

/-- The errors that a range outside the container ends in: at a supported width an I/O error of the layer or malformed input of the codec
(R124d), at any other width that width's own as well (R124c). -/
def OutsideError (c : Container) (e : HostError) : Prop :=
  1 ≤ c.sampleWidth → c.sampleWidth ≤ 4 → e = .ioError ∨ e = .malformedInput

theorem countError_outside (c : Container) : OutsideError c (countError c) :=
  fun h1 h4 => .inr (if_pos ⟨h1, h4⟩)

/-- R124d: a short read of one frame or more fails the codec's checks. -/
theorem decodeCall_short {c : Container} {bytes : List Byte} {n : Nat} {s : State} (hb : s.status ≠ .busy) (hn : 1 ≤ n)
    (hshort : bytes.length ≤ n * c.sampleWidth - 1) :
    ∃ e, (decodeCall bytes n c.sampleWidth s).1 = .error e ∧ OutsideError c e := by
  by_cases hw : 1 ≤ c.sampleWidth ∧ c.sampleWidth ≤ 4
  · obtain ⟨w, hw⟩ := exists_width_of_supported hw.1 hw.2
    rw [hw] at hshort ⊢
    have hpos : 0 < n * w.bytes := Nat.mul_pos hn (bytes_pos w)
    exact ⟨_, decodeCall_malformed hb (decodeBuffer_malformed (by omega)), fun _ _ => .inr rfl⟩
  · exact ⟨_, decodeCall_unsupported bytes n hb (by omega), fun h1 h4 => absurd ⟨h1, h4⟩ hw⟩

/-- R124d: a range outside the container fails, whatever the container layer does with it. -/
theorem readOpen_outside {io : IoEvents} {c : Container} {a b : Int} {wd : World} (hready : wd.ready)
    (hout : rangeOutside a b c.frameCount = true) :
    ∃ e, (readOpen io c a b wd).1 = .error e ∧ (c.channels = 1 → OutsideError c e) := by
  by_cases hc : c.channels = 1
  · cases hbytes : containerRead io c a b with
    | none => exact ⟨.ioError, by simp only [readOpen, hc, hbytes, ne_eq, not_true_eq_false, if_false], fun _ _ _ => .inl rfl⟩
    | some bytes =>
      have hshort := containerRead_outside hout hbytes
      by_cases hn : frameRequest a b c.frameCount < 1
      · exact ⟨countError c, by simp [readOpen, hc, hbytes, hout, hn], fun _ => countError_outside c⟩
      · obtain ⟨e, he, hclass⟩ := decodeCall_short (bytes := bytes) (c := c) (n := (frameRequest a b c.frameCount).toNat)
          hready (by omega) (hshort ▸ shortSlice_length_le c a b _)
        exact ⟨e, by simp [readOpen, hc, hbytes, hn, he, withMetadata], fun _ => hclass⟩
  · exact ⟨_, by rw [readOpen_stereo io a b wd hc], fun h => absurd h hc⟩

end Sys2Proof.Machine
end

section
/-! Proofs for the family `43_container_host.md`, the layer beneath them: what `writeContainer` can do (R125, R126), and the block that an
encode leaves behind. -/

namespace Sys2Proof.Machine

/-! ### What the file system keeps -/

theorem writeOpen_keeps_other (io : IoEvents) {path other : String} (samples : List Int) (w : Int) (rate : Nat) (wd : World)
    (h : other ≠ path) : lookupFile other (writeOpen io path samples w rate wd).2.files = lookupFile other wd.files := by
  unfold writeOpen
  dsimp only
  split
  · rfl
  · split
    · rw [lookupFile_setFile_other h]
    · rfl

theorem spoilFile_keeps_other {path other : String} (wd : World) (h : other ≠ path) :
    lookupFile other (spoilFile path wd).files = lookupFile other wd.files := lookupFile_setFile_other h _ _

/-! ### The call -/

/-- Everything a call of `writeContainer` can leave: the path spoilt because it was not created, or the closed world after its body, spoilt
when the call failed (R126). -/
theorem writeContainer_world (io : IoEvents) (path : String) (samples : List Int) (w : Int) (rate : Nat) (wd : World) :
    (writeContainer io path samples w rate wd).2 = spoilFile path wd ∨
    (writeContainer io path samples w rate wd).2 = closeHandle (writeOpen io path samples w rate (openHandle path wd)).2 ∨
    (writeContainer io path samples w rate wd).2 =
      spoilFile path (closeHandle (writeOpen io path samples w rate (openHandle path wd)).2) := by
  unfold writeContainer
  split
  · dsimp only
    split
    · exact .inr (.inl (finish_world _ _ _))
    · exact .inr (.inr (congrArg (spoilFile path) (finish_world _ _ _)))
  · exact .inl rfl

/-- A body that fails ends the call with its error, the close failing or not (R126, log entry 12). -/
theorem writeContainer_error {io : IoEvents} {path : String} {samples : List Int} {w : Int} {rate : Nat} {wd : World} {e : HostError}
    (hopen : io.openOk = true) (h : (writeOpen io path samples w rate (openHandle path wd)).1 = .error e) :
    (writeContainer io path samples w rate wd).1 = .error e := by
  simp only [writeContainer, hopen, if_true, h, finish_error]

theorem writeOpen_error {io : IoEvents} {path : String} {samples : List Int} {w : Int} {rate : Nat} {wd : World} {e : HostError}
    (h : (encodeCall samples w wd.block).1 = .error e) : (writeOpen io path samples w rate wd).1 = .error e := by
  simp only [writeOpen, h]

/-! ### The block after an encode (R113: one call at a time) -/

theorem readResult_ready {α : Type} {op : HostOp} (last : State → Answer α) {s : State} (hb : s.status ≠ .busy)
    (hi : ∀ c, op ≠ .issue c) (hr : op ≠ .reset) : (readResult (.op op) last s).2.status ≠ .busy := by
  obtain ⟨t, ht⟩ := hostReady_answers op hb
  have hturn : performLine (.op op) s = .next t := (hostTurn_ready hb).trans ht
  obtain ⟨_, hst, _⟩ := hostReady_keeps ht hi hr
  unfold readResult
  split
  · exact hb
  · simp only [hturn]
    rwa [hst]

/-- An encode of a supported width has ended when the call returns. -/
theorem encodeCall_ready {samples : List Int} (w : Width) {s : State} (hb : s.status ≠ .busy)
    (hx : ∀ x, x ∈ samples → -2147483648 ≤ x ∧ x ≤ 2147483647) : (encodeCall samples w.bytes s).2.status ≠ .busy := by
  obtain ⟨t, ht, hsame⟩ := encodeCall_atomic (widthFits_bytes w) hx hb
  rw [ofInt_add_bytes, issueAtomic_encode] at hsame
  obtain ⟨_, _, hst, _⟩ := hsame
  rw [ht]
  exact readResult_ready lastBytes (s := polled t) (by simp [polled, hst]) nofun nofun

/-! ### A write that succeeds -/

/-- The record of samples written at a width and a rate (R125). -/
def written (samples : List Int) (w : Width) (rate : Nat) : Container :=
  { channels := 1, sampleWidth := w.bytes, frameRate := rate, frameCount := samples.length,
    payload := encodeBuffer (samples.map (BitVec.ofInt 32)) w }

theorem written_payload_length (samples : List Int) (w : Width) (rate : Nat) :
    (written samples w rate).payload.length = samples.length * w.bytes := by
  rw [written, encodeBuffer_length, List.length_map]

/-- R92, R125: the frame count that closing commits is the number of samples. -/
theorem committed_encodeBuffer (samples : List Int) (w : Width) (rate : Nat) :
    committed (encodeBuffer (samples.map (BitVec.ofInt 32)) w) w.bytes rate = written samples w rate := by
  rw [committed, written, encodeBuffer_length, List.length_map, Nat.mul_div_cancel _ (bytes_pos w)]

/-- R93: the decode of the record's payload wraps every sample. -/
theorem decodeBuffer_written {samples : List Int} (w : Width) (rate : Nat)
    (hx : ∀ x, x ∈ samples → -2147483648 ≤ x ∧ x ≤ 2147483647) :
    ∃ out, decodeBuffer (written samples w rate).payload samples.length w = some out ∧
      out.map BitVec.toInt = samples.map (wrapInt w) := by
  obtain ⟨out, hdecode, hwraps⟩ := decodeBuffer_encodeBuffer w (samples.map (BitVec.ofInt 32))
  rw [List.length_map] at hdecode
  refine ⟨out, hdecode, ?_⟩
  rw [hwraps, List.map_map]
  refine List.map_congr_left fun x hmem => ?_
  obtain ⟨hlo, hhi⟩ := hx x hmem
  rw [Function.comp_apply, BitVec.toInt_ofInt_eq_self (by decide) (by omega) (by omega)]

theorem written_wf (samples : List Int) (w : Width) (rate : Nat) : (written samples w rate).wf = true := by
  rw [Container.wf, decide_eq_true_eq, written_payload_length, written, Nat.mul_one]

/-- R125: with every file operation succeeding the call answers, the path holds the record, and the block is ready for the next call. -/
theorem writeContainer_value (path : String) {samples : List Int} (w : Width) (rate : Nat) {wd : World} (hready : wd.ready)
    (hx : ∀ x, x ∈ samples → -2147483648 ≤ x ∧ x ≤ 2147483647) :
    ∃ wd', writeContainer .fine path samples w.bytes rate wd = (.value (), wd') ∧ wd'.ready ∧
      lookupFile path wd'.files = some (.container (written samples w rate)) := by
  have hencode := encodeCall_value w hready hx
  refine ⟨{ wd with
    block := (encodeCall samples w.bytes wd.block).2
    files := setFile path (some (.container (written samples w rate))) wd.files
    handle := none }, ?_, encodeCall_ready w hready hx, lookupFile_setFile_same path _ wd.files⟩
  simp only [writeContainer, writeOpen, openHandle, hencode, IoEvents.fine, if_true, finish, closeHandle, Int.toNat_natCast,
    committed_encodeBuffer]

end Sys2Proof.Machine
end

section
/-! Proofs for the family `43_container_host.md`: what the container functions return, what they leave in the file system, and the handle
they release (R122 to R129). -/

namespace Sys2Proof.Machine

/-- Settles O54: the record written opens again, and its payload is an encode, whose decode wraps every sample. -/
theorem containerRoundTripWraps : Obligations.ContainerRoundTripWraps := by
  intro path samples w rate wd hready hx
  obtain ⟨out, hdecode, hwrapped⟩ := decodeBuffer_written w rate hx
  have hlen : out.length = samples.length := decodePrefix_length (decodeBuffer_some hdecode).2
  obtain ⟨wd', hwrite, hready', hfile⟩ := writeContainer_value path w rate hready hx
  refine ⟨wd', out, hwrite, ?_, hwrapped, fun hrange => ?_⟩
  · have hread := readContainer_inside (a := 0) (n := samples.length) (b := 0) hready' hfile (written_wf samples w rate) rfl rfl
      (by simp [rangeOutside]) (sub_zero _) (.inl rfl) (Nat.zero_add _).le hdecode
    rw [List.drop_zero, List.take_of_length_le hlen.le] at hread
    exact hread
  · rw [hwrapped, List.map_congr_left fun x hmem => wrapInt_of_inRange (hrange x hmem), List.map_id']

/-- Settles O55: both ranges lie inside the container, of `T - a` frames and of `b - a + 1`. -/
theorem readContainerReturnsTheFramesAskedFor : Obligations.ReadContainerReturnsTheFramesAskedFor := by
  intro path c w wd a b all hready hfile hwf hc hw hall
  have hlen : all.length = c.frameCount := decodePrefix_length (decodeBuffer_some hall).2
  have hinside : ∀ n : Nat, a < c.frameCount → a + n ≤ c.frameCount → frameRequest a b c.frameCount = n →
      (b ≠ 0 → a ≤ b ∧ b < c.frameCount) →
      (readContainer .fine path a b wd).1 = .value ((all.drop a).take n, w.bytes, c.frameRate) := by
    intro n ha ham hn hb
    have hin : rangeOutside a b c.frameCount = false := by
      rw [← Bool.not_eq_true, rangeOutside_iff]
      omega
    exact readContainer_inside hready hfile hwf hc hw hin hn (.inr ha) ham hall
  refine ⟨fun hb ha => ?_, fun hb hab hbt => ?_⟩
  · have hread := hinside (c.frameCount - a) ha (by omega) (by rw [frameRequest, if_pos (by omega)]; omega) (absurd hb)
    rwa [List.take_of_length_le (by rw [List.length_drop, hlen])] at hread
  · exact hinside (b - a + 1) (by omega) (by omega) (by rw [frameRequest, if_neg (by omega)]; omega) fun _ => ⟨hab, hbt⟩

/-- Settles O56: the body that fails ends the call with its error. -/
theorem readContainerFailsWithNoResult : Obligations.ReadContainerFailsWithNoResult := by
  intro io path a b wd
  refine ⟨fun h => ?_, fun c hfile hopen hwf hc => ?_, fun c hready hfile hout => ?_⟩
  · refine readContainer_unopened a b fun c hfile hopens => ?_
    rcases h with h | h | h
    · cases h.symm.trans hfile
    · cases h.symm.trans hfile
    · cases h.symm.trans hopens.1
  · rw [readContainer_opened a b hfile hopen hwf, readOpen_stereo io a b _ hc, finish_error]
    exact ⟨rfl, rfl⟩
  · rcases readContainer_cases io path a b wd with h | ⟨d, hd, h⟩ <;> rw [h]
    · exact ⟨.ioError, rfl, fun _ _ _ => .inl rfl⟩
    · cases hfile.symm.trans hd
      obtain ⟨e, he, hclass⟩ := readOpen_outside (io := io) (wd := openHandle path wd) hready (rangeOutside_iff.mpr hout)
      rw [he, finish_error]
      exact ⟨e, rfl, hclass⟩

/-- Settles O57: a file that is not opened takes no handle, and the `finally` releases the one taken. -/
theorem containerHandlesAreReleased : Obligations.ContainerHandlesAreReleased := by
  intro io path wd hnone
  refine ⟨fun a b => ?_, fun samples w rate => ?_⟩
  · rcases readContainer_cases io path a b wd with h | ⟨c, _, h⟩ <;> rw [h]
    · exact hnone
    · rw [finish_world]
      rfl
  · rcases writeContainer_world io path samples w rate wd with h | h | h <;> rw [h]
    · exact hnone
    · rfl
    · rfl

/-- Settles O58: the record is the one of a write that succeeds, and neither the body nor a spoilt path touches another. -/
theorem writeContainerCommitsTheRecord : Obligations.WriteContainerCommitsTheRecord := by
  refine ⟨fun path samples w rate wd hready hx => ?_, fun io path other samples w rate wd hne => ?_,
    fun io path samples w rate wd hready hopen hu hx => ?_⟩
  · obtain ⟨wd', hwrite, _, hfile⟩ := writeContainer_value path w rate hready hx
    rw [hwrite]
    exact ⟨rfl, hfile⟩
  · have hbody := writeOpen_keeps_other io samples w rate (openHandle path wd) hne
    rcases writeContainer_world io path samples w rate wd with h | h | h <;> rw [h]
    · exact spoilFile_keeps_other wd hne
    · exact hbody
    · exact (spoilFile_keeps_other _ hne).trans hbody
  · exact writeContainer_error hopen (writeOpen_error (encodeCall_unsupported hready hu hx))

end Sys2Proof.Machine
end

section
/-! Proofs for the family `60_exceptions.md`: how an error is taken and how long it stands (R147, R148), that a step never fails (R149), and
what `DONE` means (R153). -/

namespace Sys2Proof.Machine

/-! ### No step fails (R149) -/

/-- R100, U11: under the default bounds every host operation has an effect in every state. -/
theorem hostTurn_answers (op : HostOp) (s : State) : ∃ t, hostTurn Config.bounds op s = .next t := by
  by_cases hb : s.status = .busy
  · rw [hostTurn_busy hb]
    exact hostBusy_answers op s
  · rw [hostTurn_ready hb]
    exact hostReady_answers op hb

/-- R149: in flight a turn of the block converts a frame or completes, and reports no error. -/
theorem blockTurn_raises_nothing {s : State} (hs : Inv s) (hb : s.status = .busy) :
    ∃ t, blockTurn s = .next t ∧ (t.status = .busy ∨ t.status = .done) ∧ t.err = .none := by
  rcases blockTurn_of_inv hs hb with ⟨t, ht, hframe⟩ | ⟨_, hc⟩
  · exact ⟨t, ht, .inl hframe.busy, hframe.inv.err_of_busy hframe.busy⟩
  · exact ⟨_, hc, .inr rfl, hs.err_of_busy hb⟩

theorem blockTurn_answers {s : State} (hs : Inv s) : ∃ t, blockTurn s = .next t := by
  by_cases hb : s.status = .busy
  · obtain ⟨t, ht, _⟩ := blockTurn_raises_nothing hs hb
    exact ⟨t, ht⟩
  · exact ⟨s, blockTurn_ready hb⟩

/-- Progress: whoever moves next, a state of the invariant has a next state. -/
theorem step_answers {s : State} (hs : Inv s) : ∃ t, step s = .next t := by
  rcases step_cases s with ⟨_, h⟩ | ⟨rest, _, h⟩ | ⟨op, rest, _, h⟩ <;> rw [h]
  · exact blockTurn_answers hs
  · exact blockTurn_answers (inv_of_sameBlock (withTurns_sameBlock s rest) hs)
  · exact hostTurn_answers op _

/-- Settles O25: a turn of the host always answers, and the invariant puts every cell the block needs where it looks. -/
theorem noStepFailsUnderTheInvariant : Obligations.NoStepFailsUnderTheInvariant :=
  fun _ hs => ⟨step_answers hs, blockTurn_raises_nothing hs⟩

/-! ### Taking an error (R147) -/

theorem ofField_widthField_commandWord (d : Direction) (w : Width) : Width.ofField (widthField (commandWord d w)) = some w := by
  cases d <;> cases w <;> rfl

/-- R145, R147: an `ISSUE` that ends in `ERROR` has written `CMD` and raised one error: `UnsupportedConfiguration` for a word that spells no
operation, `MalformedInput` for one that does. -/
theorem issueWord_error {c : BitVec 4} {s t : State} (hb : s.status ≠ .busy) (h : issueWord c s = .next t) (ht : t.status = .error) :
    (Width.ofField (widthField c) = none ∧ t = raiseError .unsupportedConfiguration (writeCmd c s)) ∨
    (Width.ofField (widthField c) ≠ none ∧ t = raiseError .malformedInput (writeCmd c s)) := by
  rcases issueWord_cases c hb with ⟨hu, hi⟩ | ⟨w, rfl, hi⟩ | ⟨w, rfl, hi⟩ <;> cases hi.symm.trans h
  · exact .inl ⟨hu, rfl⟩
  · rcases admitDecode_cases w (writeCmd (commandWord .decode w) s) with ⟨_, ha⟩ | ⟨_, ha⟩ <;> rw [ha] at ht ⊢
    · cases ht
    · exact .inr ⟨by simp [ofField_widthField_commandWord], rfl⟩
  · cases ht

/-- Settles O20: the state is one of the two that `raiseError` makes after the write of `CMD`. -/
theorem errorEntryWritesOnlyTheReport : Obligations.ErrorEntryWritesOnlyTheReport := by
  intro s t c hb h ht
  rw [hostTurn_issue c hb] at h
  rcases issueWord_error hb h ht with ⟨_, rfl⟩ | ⟨_, rfl⟩
  · exact ⟨rfl, rfl, .inr ⟨rfl, rfl⟩⟩
  · exact ⟨rfl, rfl, .inl ⟨rfl, rfl⟩⟩

/-! ### How long an error stands (R148) -/

theorem not_busy_of_error {s : State} (h : s.status = .error) : s.status ≠ .busy := by simp [h]

/-- R100: on a block that is not `BUSY` no host operation but `ISSUE` and `RESET` touches the report, and all are accepted. -/
theorem hostTurn_keeps_report {op : HostOp} {s : State} (hb : s.status ≠ .busy) (hi : ∀ c, op ≠ .issue c) (hr : op ≠ .reset) :
    ∃ t, hostTurn Config.bounds op s = .next t ∧ t.status = s.status ∧ t.err = s.err := by
  obtain ⟨t, h⟩ := hostReady_answers op hb
  obtain ⟨_, hst, herr, _⟩ := hostReady_keeps h hi hr
  exact ⟨t, (hostTurn_ready hb).trans h, hst, herr⟩

/-- R108: the `ISSUE` of an operation whose inputs pass sets `BUSY` and `NONE`, whatever the report was. -/
theorem issueWord_admits {i : Instr} {s : State} (hb : s.status ≠ .busy)
    (hl : i.dir = .decode → s.raw.length = s.frameCount * i.width.bytes) :
    ∃ t, issueWord (encode i) s = .next t ∧ t.status = .busy ∧ t.err = .none := by
  cases hd : i.dir <;> rw [encode, hd]
  · exact ⟨_, issueWord_admits_decode hb (hl hd), rfl, rfl⟩
  · exact ⟨_, issueWord_encodeWord i.width hb, rfl, rfl⟩

/-- Settles O21: a block in `ERROR` is not `BUSY`, so it is the second column of R100 and the block's rest that say what each turn does. -/
theorem errorStandsUntilIssueOrReset : Obligations.ErrorStandsUntilIssueOrReset := by
  refine ⟨fun s op he hi hr => ?_, fun s he => blockTurn_ready (not_busy_of_error he), fun s i he hl => ?_, fun s c he => ?_⟩
  · obtain ⟨t, h, hst, herr⟩ := hostTurn_keeps_report (not_busy_of_error he) hi hr
    exact ⟨t, h, hst.trans he, herr⟩
  · rw [hostTurn_issue _ (not_busy_of_error he)]
    exact issueWord_admits (not_busy_of_error he) hl
  · rw [hostTurn_issue c (not_busy_of_error he)]
    obtain ⟨t, h⟩ := issueWord_answers c (not_busy_of_error he)
    refine ⟨t, h, fun ht => ?_⟩
    rcases issueWord_error (not_busy_of_error he) h ht with ⟨hu, rfl⟩ | ⟨hu, rfl⟩ <;> simp [hu, CodecError.err]

/-! ### What `DONE` means (R153) -/

/-- Under the invariant a turn of the block that enters `DONE` is `COMPLETE` with every frame converted. -/
theorem blockTurn_enters_done {s t : State} (hs : Inv s) (h : blockTurn s = .next t) (hsd : s.status ≠ .done) (htd : t.status = .done) :
    s.status = .busy ∧ s.idx = frames s ∧ t = complete s := by
  by_cases hb : s.status = .busy
  · rcases blockTurn_of_inv hs hb with ⟨u, hu, hframe⟩ | ⟨hi, hc⟩
    · cases hu.symm.trans h
      exact absurd (hframe.busy.symm.trans htd) (by decide)
    · cases hc.symm.trans h
      exact ⟨hb, hi, rfl⟩
  · cases (blockTurn_ready hb).symm.trans h
    exact absurd htd hsd

/-- No operation of the host enters `DONE`. -/
theorem hostTurn_not_enters_done {op : HostOp} {s t : State} (h : hostTurn Config.bounds op s = .next t) (hsd : s.status ≠ .done) :
    t.status ≠ .done := by
  obtain ⟨_, ⟨hb, hbusy⟩ | ⟨hb, hready⟩⟩ := hostTurn_next h
  · by_cases hr : op = .reset
    · subst hr
      cases hbusy
      simp [State.reset]
    · obtain ⟨_, _, hst, _⟩ := hostBusy_sameBlock hbusy hr
      rwa [hst]
  · rcases hostReady_cases hready with ⟨c, _, hi⟩ | ⟨_, rfl⟩ | ⟨_, _, _, hst, _⟩
    · rcases issueWord_idx hb hi with ⟨ht, _⟩ | ⟨ht, _⟩ <;> simp [ht]
    · simp [State.reset]
    · rwa [hst]

/-- A step that enters `DONE` is the `COMPLETE` of a transaction in flight, taken from `u`, the state without the turn. -/
theorem step_enters_done {s t : State} (hs : Inv s) (h : step s = .next t) (hsd : s.status ≠ .done) (htd : t.status = .done) :
    ∃ u, SameBlock u s ∧ u.status = .busy ∧ u.idx = frames u ∧ t = complete u := by
  rcases step_cases s with ⟨_, hstep⟩ | ⟨rest, _, hstep⟩ | ⟨op, rest, _, hstep⟩ <;> rw [hstep] at h
  · exact ⟨s, sameBlock_refl s, blockTurn_enters_done hs h hsd htd⟩
  · have hspent := withTurns_sameBlock s rest
    exact ⟨_, hspent, blockTurn_enters_done (inv_of_sameBlock hspent hs) h hsd htd⟩
  · exact absurd htd (hostTurn_not_enters_done h hsd)

/-- Settles O22: `COMPLETE` leaves the buffers that the invariant describes at `IDX` = `N`, and the invariant after the step gives the code. -/
theorem doneMeansEveryFrameWasConverted : Obligations.DoneMeansEveryFrameWasConverted := by
  intro s t hs h
  have hinv := everyStepKeepsTheInvariant s t hs h
  refine ⟨fun hsd htd => ?_, hinv.err_iff.mpr⟩
  obtain ⟨i, hi⟩ := hinv.done htd
  have hcmd := (decode_ok_iff _ _).mp hi
  obtain ⟨u, hus, hb, hidx, rfl⟩ := step_enters_done hs h hsd htd
  have hu := inv_of_sameBlock hus hs
  obtain ⟨_, hdecode, hencode⟩ := completionEndsTheTransaction i u hb hcmd hidx
  obtain ⟨_, _, hst, _⟩ := hus
  exact ⟨hst.symm.trans hb, hidx, hu.err_of_busy hb, i, hcmd, hdecode hu, hencode hu⟩

end Sys2Proof.Machine
end

section
/-! Proofs for the family `70_reset_and_hazards.md`: what a block at rest does after reset (R160, R162, R163), the host's writes in flight
(R164), and who writes `FRAMECOUNT` (R168). -/

namespace Sys2Proof.Machine

/-! ### Who writes `FRAMECOUNT` (R13, R168) -/

/-- R108: no check of `ISSUE`, passed or failed, writes `FRAMECOUNT`. -/
theorem issueWord_frameCount {c : BitVec 4} {s t : State} (hb : s.status ≠ .busy) (h : issueWord c s = .next t) :
    t.frameCount = s.frameCount := by
  rcases issueWord_cases c hb with ⟨_, hi⟩ | ⟨w, _, hi⟩ | ⟨_, _, hi⟩ <;> cases hi.symm.trans h
  · rfl
  · rcases admitDecode_cases w (writeCmd c s) with ⟨_, ha⟩ | ⟨_, ha⟩ <;> rw [ha] <;> rfl
  · rfl

/-- R100: on a block that is not `BUSY`, no host operation but `SETFC` and `RESET` writes `FRAMECOUNT`. -/
theorem hostReady_frameCount {op : HostOp} {s t : State} (hb : s.status ≠ .busy) (h : hostReady op s = .next t)
    (hset : ∀ n, op ≠ .setFc n) (hr : op ≠ .reset) : t.frameCount = s.frameCount := by
  rcases hostReady_cases h with ⟨_, _, hissue⟩ | ⟨hreset, _⟩ | ⟨hi, _⟩
  · exact issueWord_frameCount hb hissue
  · exact absurd hreset hr
  · obtain ⟨_, _, _, _, hkeep⟩ := hostReady_keeps h hi hr
    exact hkeep hset

/-- Settles O45: a turn of the block keeps it; of the host's operations only `RESET` writes it while `BUSY`, and `SETFC` and `RESET` while
not. -/
theorem frameCountIsSticky : Obligations.FrameCountIsSticky := by
  intro s t h hset hr
  obtain ⟨u, ⟨_, hfc, _⟩, hblock | ⟨op, hop, _, hbusy⟩ | ⟨op, hop, hb, hready⟩⟩ := step_next h
  · obtain ⟨_, hkeep, _⟩ := blockTurn_keeps hblock
    exact hkeep.trans hfc
  · have hne : op ≠ .reset := by rintro rfl; exact hr hop
    obtain ⟨_, hkeep, _⟩ := hostBusy_sameBlock hbusy hne
    exact hkeep.trans hfc
  · have hne : op ≠ .reset := by rintro rfl; exact hr hop
    have hns : ∀ n, op ≠ .setFc n := by rintro n rfl; exact hset n hop
    exact (hostReady_frameCount hb hready hns hne).trans hfc

/-! ### The host's writes in flight (R164) -/

/-- Settles O38: each of the four is dropped in the column of R100 for a block that is `BUSY`, which is entered with the turn spent. -/
theorem hostWritesWhileBusyAreDropped : Obligations.HostWritesWhileBusyAreDropped := by
  intro s op rest hb ht hop
  have hturn : step s = hostBusy op { s with turns := rest } :=
    (step_host ht).trans (hostTurn_busy (s := { s with turns := rest }) hb)
  rw [hturn]
  rcases hop with ⟨_, rfl⟩ | ⟨_, rfl⟩ | ⟨_, rfl⟩ | ⟨_, rfl⟩ <;> rfl

/-! ### A block at rest (R152, R160) -/

theorem reset_not_busy : State.reset.status ≠ .busy := by simp [State.reset]

/-- R152, R160: with no turn pending, a block that is not `BUSY` stays as it is. -/
theorem step_at_rest {s : State} (hb : s.status ≠ .busy) (ht : s.turns = []) : step s = .next s :=
  (step_alone ht).trans (blockTurn_ready hb)

/-- R160: and it stays so however long nobody acts. -/
theorem run_at_rest (k : Nat) {s : State} (hb : s.status ≠ .busy) (ht : s.turns = []) : run k s = .next s := by
  induction k with
  | zero => rfl
  | succ k ih => rw [run_succ (step_at_rest hb ht), ih]

/-- Settles O44: the reset state is one at rest. -/
theorem readyBlockWaitsForTheHost : Obligations.ReadyBlockWaitsForTheHost :=
  ⟨fun _ hb ht => step_at_rest hb ht,
    fun s rest hb ht => (step_block ht).trans (blockTurn_ready (s := { s with turns := rest }) hb),
    fun k => run_at_rest k reset_not_busy rfl⟩

/-! ### Zero frames (D32, R162, R163) -/

/-- After reset both frame counts are 0 and the length check of a decode compares 0 with 0, so the transaction is its `ISSUE` and its
`COMPLETE`. -/
theorem run_issue_reset (d : Direction) (w : Width) :
    run 2 { State.reset with turns := [.host (.issue (commandWord d w))] } =
      .next { State.reset with cmd := commandWord d w, status := .done } := by
  cases d with
  | decode =>
    have hl : State.reset.raw.length = State.reset.frameCount * w.bytes := (Nat.zero_mul _).symm
    have hend := issueAtomic_decode (w := w) (s := State.reset) (decodeBuffer_nil w)
    exact (run_decode reset_not_busy rfl hl).trans (congrArg _ hend)
  | encode =>
    have hend := issueAtomic_encode w State.reset
    exact (run_encode w reset_not_busy rfl).trans (congrArg _ hend)

/-- Settles O49: every operation is one of a direction and a width. -/
theorem zeroFramesAreLegal : Obligations.ZeroFramesAreLegal :=
  fun i => ⟨_, run_issue_reset i.dir i.width, rfl⟩

end Sys2Proof.Machine
end
